-- ==== Sys2Proof/Word.lean ====
section
/-!
DEFINITION. The words of the FWB engine: bytes, 32-bit words, register names, and N-bit values as limb lists
(rules R4, R9, R10, R39).
-/

namespace Sys2Proof

/-- One byte of the transfer buffer (rule R51). -/
abbrev Byte := BitVec 8

/-- A 32-bit word: a command word (rule R80), a host data word (rule R30), or one limb of a value (rule R4). -/
abbrev Word := BitVec 32

/-- A value register name V0 … V15 (rules R21, R83). -/
abbrev Reg := Fin 16

/-- The content of a value register: its 32-bit limbs, limb 0 (least significant) first (rules R4, R39). That
a register of an engine of width N holds exactly N/32 limbs is the invariant `Machine.State.Inv`. -/
abbrev Blob := List Word

end Sys2Proof
end

