-- ==== Sys2Proof/Config.lean ====
section
/-!
DEFINITION. What an instance fixes (rules R3, R8, R61) and the one thing the spec leaves to a draw (rules R40,
R281): the parameters of an engine, and the contents of the transfer buffer after a reset.
-/

namespace Sys2Proof

/-- The three widths N; no other width is in scope (rule R3, 90_conflicts.md C9). -/
inductive Width where
  | w160
  | w256
  | w512
deriving DecidableEq, Repr

/-- N, in bits (rule R3). -/
def Width.bits : Width → Nat
  | .w160 => 160
  | .w256 => 256
  | .w512 => 512

/-- The parameters of one engine instance (rule R8, and HOST_BASE of rule R61). They never change. -/
structure Config where
  /-- WIDTH (rule R3). -/
  width : Width
  /-- NARROW_BITWISE: class BITWISE enabled at N = 160 and N = 256 (rule R230, 90_conflicts.md C5). -/
  narrowBitwise : Bool
  /-- TBUF_BYTES: size of the transfer buffer (rule R51). -/
  tbufBytes : Nat
  /-- HOST_BASE: the platform's address of the engine's window (rule R61, OPEN). -/
  hostBase : Nat
deriving DecidableEq, Repr

/-- L = N/32, the limb count (rule R4). -/
def Config.limbs (c : Config) : Nat := c.width.bits / 32

/-- NB = N/8, the raw byte count (rule R5). -/
def Config.rawBytes (c : Config) : Nat := c.width.bits / 8

/-- The range rule R8 gives TBUF_BYTES: a multiple of 4, 128 … 65536. -/
abbrev Config.wf (c : Config) : Prop :=
  c.tbufBytes % 4 = 0 ∧ 128 ≤ c.tbufBytes ∧ c.tbufBytes ≤ 65536

/-- The instance `Machine.State.reset` is: an FWB-512, the one width at which every class is enabled (DESIGN
CHOICE, log entry 1: rule R8 gives WIDTH no default), with the defaults rule R8 gives NARROW_BITWISE and
TBUF_BYTES, at host address 0 (DESIGN CHOICE, log entry 1: rule R61 leaves HOST_BASE open). -/
def Config.fwb512 : Config :=
  { width := .w512, narrowBitwise := false, tbufBytes := 256, hostBase := 0 }

/-- FREE VALUE: the byte that TBUF address `addr` holds after the reset number `epoch`, until something writes
it. "TBUF is not initialised: its bytes after a reset are draws, whatever they held before" (rule R281; rule
R40, 93_implementation_defined.md I5). It has no body, so no proof can use a value of it (log entry 5). -/
opaque Config.tbufDraw (epoch addr : Nat) : Byte

end Sys2Proof
end

