-- ==== Sys2Proof/Machine/Limbs.lean ====
section
/-!
DEFINITION. Values as limb lists: val, blob and raw bytes (rules R10, R54, R55), and the limb algorithms of
42_bitwise_shift.md and 43_arithmetic.md. A rule's loop over limb indices is a recursion over the limb list; its
closed form is a claim, not the definition (log entry 16).
-/

namespace Sys2Proof.Machine

/-- val(v) = Σ limb(v,k)·2^(32k) (rule R10). -/
def val : Blob → Nat
  | [] => 0
  | l :: ls => l.toNat + 2 ^ 32 * val ls

/-- blob(x) at `n` limbs: the value with val = x mod 2^(32n) (rule R10). -/
def blob : Nat → Nat → Blob
  | 0, _ => []
  | n + 1, x => BitVec.ofNat 32 x :: blob n (x / 2 ^ 32)

/-- The zero value of `n` limbs (rule R110). -/
def zeroBlob (n : Nat) : Blob := List.replicate n 0#32

/-! ## Raw bytes (20_memory.md) -/

/-- The four raw bytes of a limb, least significant first (rule R54). -/
def limbBytes (l : Word) : List Byte :=
  [BitVec.ofNat 8 l.toNat, BitVec.ofNat 8 (l.toNat / 2 ^ 8), BitVec.ofNat 8 (l.toNat / 2 ^ 16),
    BitVec.ofNat 8 (l.toNat / 2 ^ 24)]

/-- A limb from four raw bytes, least significant first (rule R55). -/
def limbOfBytes (b0 b1 b2 b3 : Byte) : Word :=
  BitVec.ofNat 32 (b0.toNat + b1.toNat * 2 ^ 8 + b2.toNat * 2 ^ 16 + b3.toNat * 2 ^ 24)

/-- raw(v) (rule R54). -/
def raw : Blob → List Byte
  | [] => []
  | l :: ls => limbBytes l ++ raw ls

/-- fromRaw(b) (rule R55); defined on lists of whole limbs. -/
def fromRaw : List Byte → Blob
  | b0 :: b1 :: b2 :: b3 :: bs => limbOfBytes b0 b1 b2 b3 :: fromRaw bs
  | _ => []

/-! ## Comparison and the null test (41_construction_compare.md) -/

/-- The comparison loop of rule R116 over two byte lists, most significant byte first. -/
def cmpBytes : List Byte → List Byte → Ordering
  | a :: as, b :: bs => if a = b then cmpBytes as bs else if a < b then .lt else .gt
  | _, _ => .eq

/-- `cmp` of rule R116: byte NB−1 is compared first. -/
def cmpBlob (a b : Blob) : Ordering := cmpBytes (raw a).reverse (raw b).reverse

/-- "true iff every bit is 0" (rule R115). -/
def isNull (a : Blob) : Bool := a.all (· == 0#32)

/-! ## Bitwise operators and shifts (42_bitwise_shift.md) -/

/-- Rule R140. -/
def notBlob (a : Blob) : Blob := a.map (· ^^^ 0xFFFFFFFF#32)

/-- Rule R141. -/
def andBlob (a b : Blob) : Blob := List.zipWith (· &&& ·) a b

/-- Rule R142. -/
def orBlob (a b : Blob) : Blob := List.zipWith (· ||| ·) a b

/-- Rule R143. -/
def xorBlob (a b : Blob) : Blob := List.zipWith (· ^^^ ·) a b

/-- The sub-limb shift r < 32 of rule R144, low limb to high: a limb receives `(a[i] << r) mod 2^32` and, when
r ≠ 0, the bits `a[i-1] >> (32 - r)` of the limb below, which is `below`. -/
def shlBits (r : Nat) : Word → Blob → Blob
  | _, [] => []
  | below, a :: as => (a <<< r ||| if r = 0 then 0#32 else below >>> (32 - r)) :: shlBits r a as

/-- SHL of rule R144: k = s div 32 limbs up, r = s mod 32 bits up, the limbs past the top discarded. -/
def shlBlob (a : Blob) (s : Nat) : Blob :=
  (zeroBlob (min (s / 32) a.length) ++ shlBits (s % 32) 0#32 a).take a.length

/-- The sub-limb shift r < 32 of rule R145: a limb receives `a[i] >> r` and, when r ≠ 0, the bits
`(a[i+1] << (32 - r)) mod 2^32` of the limb above, zeros at the top. -/
def shrBits (r : Nat) : Blob → Blob
  | [] => []
  | [a] => [a >>> r]
  | a :: b :: as => (a >>> r ||| if r = 0 then 0#32 else b <<< (32 - r)) :: shrBits r (b :: as)

/-- SHR of rule R145: k = s div 32 limbs down, r = s mod 32 bits down, zeros filling from the top. -/
def shrBlob (a : Blob) (s : Nat) : Blob :=
  shrBits (s % 32) (a.drop (s / 32)) ++ zeroBlob (min (s / 32) a.length)

/-! ## Arithmetic (43_arithmetic.md) -/

/-- The loop of rule R161: n = carry + a[i] + b[i], exact; res[i] = n mod 2^32, carry = n div 2^32; the final
carry is dropped. -/
def addLoop : Nat → Blob → Blob → Blob
  | carry, a :: as, b :: bs =>
    let n := carry + a.toNat + b.toNat
    BitVec.ofNat 32 n :: addLoop (n / 2 ^ 32) as bs
  | _, _, _ => []

/-- Rule R161. -/
def addBlob (a b : Blob) : Blob := addLoop 0 a b

/-- Rule R163: ripple from limb 0 upward; a carry out of the top is dropped. -/
def incBlob : Blob → Blob
  | [] => []
  | a :: as => if a + 1#32 = 0#32 then 0#32 :: incBlob as else (a + 1#32) :: as

/-- Rule R164: borrow ripple from limb 0 upward; a borrow out of the top is dropped. -/
def decBlob : Blob → Blob
  | [] => []
  | a :: as => if a = 0#32 then (a - 1#32) :: decBlob as else (a - 1#32) :: as

/-- Rule R160: complement, then add 1. -/
def negBlob (a : Blob) : Blob := incBlob (notBlob a)

/-- Rule R162: addition of the negation. -/
def subBlob (a b : Blob) : Blob := addBlob a (negBlob b)

/-- The loop of rule R165: n = carry + m·a[i], exact; the final carry is dropped. -/
def mulsLoop (m : Word) : Nat → Blob → Blob
  | _, [] => []
  | carry, a :: as =>
    let n := carry + m.toNat * a.toNat
    BitVec.ofNat 32 n :: mulsLoop m (n / 2 ^ 32) as

/-- Rule R165. -/
def mulsBlob (a : Blob) (m : Word) : Blob := mulsLoop m 0 a

/-- The inner loop of rule R166 for one outer index j, over the limbs of `res` from index j up: n = carry +
res[i+j] + a[j]·b[i], exact, while i + j < L; the carry left at the end is dropped. -/
def mulRow (aj : Word) : Nat → Blob → Blob → Blob
  | carry, r :: rs, b :: bs =>
    let n := carry + r.toNat + aj.toNat * b.toNat
    BitVec.ofNat 32 n :: mulRow aj (n / 2 ^ 32) rs bs
  | _, rs, _ => rs

/-- The outer loop of rule R166, over the limbs of `a` from index j up and of `res` from index j up: row j adds
a[j]·b there, after which limb j of `res` is final. -/
def mulLoop (b : Blob) : Blob → Blob → Blob
  | a :: as, r :: rs =>
    match mulRow a 0 (r :: rs) b with
    | [] => []
    | q :: qs => q :: mulLoop b as qs
  | _, res => res

/-- Rule R166. -/
def mulBlob (a b : Blob) : Blob := mulLoop b a (zeroBlob a.length)

/-- bits(v) (rule R169): 0 for the zero value, else 1 + the index of the highest set bit. -/
def bitsBlob (v : Blob) : Nat := if val v = 0 then 0 else Nat.log2 (val v) + 1

/-- q[i] <- 1 (rule R167): sets bit i of a value. -/
def setBit (q : Blob) (i : Nat) : Blob := q.modify (i / 32) (· ||| 1#32 <<< (i % 32))

/-- The loop of rule R167, step 5, with `n` = shift + 1 passes to go: `num >= div` subtracts and sets bit `shift`
of the quotient, then `div` moves down one bit. Answers the quotient and the remainder. -/
def divLoop : Nat → Blob → Blob → Blob → Blob × Blob
  | 0, num, _, q => (q, num)
  | shift + 1, num, dvs, q =>
    if cmpBlob num dvs = .lt then divLoop shift num (shrBlob dvs 1) q
    else divLoop shift (subBlob num dvs) (shrBlob dvs 1) (setBit q shift)

/-- Rule R167: none for a zero divisor (step 2), else the quotient and the remainder (steps 3 to 6). -/
def divBlob (num dvs : Blob) : Option (Blob × Blob) :=
  let divisorBits := bitsBlob dvs
  if divisorBits = 0 then none
  else
    let dividendBits := bitsBlob num
    if dividendBits < divisorBits then some (zeroBlob num.length, num)
    else
      let shift := dividendBits - divisorBits
      some (divLoop (shift + 1) num (shlBlob dvs shift) (zeroBlob num.length))

end Sys2Proof.Machine
end

