-- ==== Sys2Proof/Syntax.lean ====
section
/-!
DEFINITION. The commands of the engine: one constructor of `Instr` per row of rule R86, with the operands of
rules R83 and R84, and the opcode each belongs to.
-/

namespace Sys2Proof

/-- The operation classes of rule R85. -/
inductive OpClass where
  | basic
  | bitwise
  | arith
  | trunc
deriving DecidableEq, Repr

/-- The 26 opcodes of rule R86, without operands. -/
inductive Op where
  | zero | mov | ldu64 | ldraw | straw | hexdec | hexenc | cmp | isnull
  | not | and | or | xor | shl | shr
  | neg | add | sub | inc | dec | muls | mul | div | rdrem | bits
  | trunc256
deriving DecidableEq, Repr

/-- The commands. `rd`, `ra`, `rb` are register operands (rule R83), the others the immediate and address
operands of rule R84, each at its full width. -/
inductive Instr where
  | zero (rd : Reg)
  | mov (rd ra : Reg)
  | ldu64 (rd : Reg) (imm64 : BitVec 64)
  | ldraw (rd : Reg) (addr len : Word)
  | straw (ra : Reg) (addr : Word)
  | hexdec (rd : Reg) (addr len : Word)
  | hexenc (ra : Reg) (addr : Word)
  | cmp (ra rb : Reg)
  | isnull (ra : Reg)
  | not (rd ra : Reg)
  | and (rd ra rb : Reg)
  | or (rd ra rb : Reg)
  | xor (rd ra rb : Reg)
  | shl (rd ra : Reg) (imm32 : Word)
  | shr (rd ra : Reg) (imm32 : Word)
  | neg (rd ra : Reg)
  | add (rd ra rb : Reg)
  | sub (rd ra rb : Reg)
  | inc (rd ra : Reg)
  | dec (rd ra : Reg)
  | muls (rd ra : Reg) (imm32 : Word)
  | mul (rd ra rb : Reg)
  | div (rd ra rb : Reg)
  | rdrem (rd : Reg)
  | bits (ra : Reg)
  | trunc256 (ra : Reg) (addr : Word)
deriving DecidableEq, Repr

/-- The opcode of a command. -/
def Instr.op : Instr → Op
  | .zero _ => .zero
  | .mov _ _ => .mov
  | .ldu64 _ _ => .ldu64
  | .ldraw _ _ _ => .ldraw
  | .straw _ _ => .straw
  | .hexdec _ _ _ => .hexdec
  | .hexenc _ _ => .hexenc
  | .cmp _ _ => .cmp
  | .isnull _ => .isnull
  | .not _ _ => .not
  | .and _ _ _ => .and
  | .or _ _ _ => .or
  | .xor _ _ _ => .xor
  | .shl _ _ _ => .shl
  | .shr _ _ _ => .shr
  | .neg _ _ => .neg
  | .add _ _ _ => .add
  | .sub _ _ _ => .sub
  | .inc _ _ => .inc
  | .dec _ _ => .dec
  | .muls _ _ _ => .muls
  | .mul _ _ _ => .mul
  | .div _ _ _ => .div
  | .rdrem _ => .rdrem
  | .bits _ => .bits
  | .trunc256 _ _ => .trunc256

end Sys2Proof
end

