-- ==== Sys2Proof/Machine/Classes.lean ====
section
/-!
DEFINITION. The class of each opcode (rules R85, R86) and the classes an engine of a width accepts (rule R230).
-/

namespace Sys2Proof

/-- The class column of rule R86. -/
def Op.cls : Op → OpClass
  | .zero | .mov | .ldu64 | .ldraw | .straw | .hexdec | .hexenc | .cmp | .isnull => .basic
  | .not | .and | .or | .xor | .shl | .shr => .bitwise
  | .neg | .add | .sub | .inc | .dec | .muls | .mul | .div | .rdrem | .bits => .arith
  | .trunc256 => .trunc

/-- The table of rule R230. -/
def Config.classEnabled (c : Config) : OpClass → Bool
  | .basic => true
  | .bitwise => decide (c.width = .w512) || c.narrowBitwise
  | .arith => decide (c.width = .w512)
  | .trunc => decide (c.width = .w512)

end Sys2Proof
end

