-- ==== Sys2Proof/WellFormed.lean ====
section
/-!
DEFINITION. When a command is well formed for an engine. Every operand of `Instr` has the exact width of its
field (rules R83, R84: no field value is reserved), so the one check left is that the command's class is
enabled at this engine (rules R89, R230).
-/

namespace Sys2Proof

/-- The command is one the engine accepts: its class is enabled at the engine's width (rules R89, R230). -/
abbrev Instr.wellFormed (c : Config) (i : Instr) : Prop := c.classEnabled i.op.cls = true

end Sys2Proof
end

