-- ==== Sys2Proof/Decode.lean ====
section
/-!
DEFINITION. The command encoding of 30_encoding.md: the opcode map (rule R86), the word0 layout (rule R81), the
decoder (rules R80 to R92), and after it the encoder written from the same tables.
-/

namespace Sys2Proof

/-- `v[hi:lo]` (rule R9): the unsigned integer formed by bits hi down to lo of a word. -/
def slice (w : Word) (hi lo : Nat) : Nat := w.toNat / 2 ^ lo % 2 ^ (hi + 1 - lo)

/-- OPC, bits [31:24] of word0 (rule R81). -/
def opcOf (w0 : Word) : Nat := slice w0 31 24

/-- RD, bits [23:20] of word0 (rule R81). -/
def rdOf (w0 : Word) : Reg := Fin.ofNat 16 (slice w0 23 20)

/-- RA, bits [19:16] of word0 (rule R81). -/
def raOf (w0 : Word) : Reg := Fin.ofNat 16 (slice w0 19 16)

/-- RB, bits [15:12] of word0 (rule R81). -/
def rbOf (w0 : Word) : Reg := Fin.ofNat 16 (slice w0 15 12)

/-- The formats of rule R82: R is word0 alone, RX adds X1, RXX adds X1 and X2. -/
inductive Format where
  | r
  | rx
  | rxx
deriving DecidableEq, Repr

/-- The word count of a format (rule R82). -/
def Format.words : Format → Nat
  | .r => 1
  | .rx => 2
  | .rxx => 3

/-- The OPC column of rule R86. -/
def Op.code : Op → Nat
  | .zero => 0x01
  | .mov => 0x02
  | .ldu64 => 0x03
  | .ldraw => 0x04
  | .straw => 0x05
  | .hexdec => 0x06
  | .hexenc => 0x07
  | .cmp => 0x08
  | .isnull => 0x09
  | .not => 0x10
  | .and => 0x11
  | .or => 0x12
  | .xor => 0x13
  | .shl => 0x14
  | .shr => 0x15
  | .neg => 0x20
  | .add => 0x21
  | .sub => 0x22
  | .inc => 0x23
  | .dec => 0x24
  | .muls => 0x25
  | .mul => 0x26
  | .div => 0x27
  | .rdrem => 0x28
  | .bits => 0x29
  | .trunc256 => 0x30

/-- The format column of rule R86. -/
def Op.format : Op → Format
  | .ldu64 | .ldraw | .hexdec => .rxx
  | .straw | .hexenc | .shl | .shr | .muls | .trunc256 => .rx
  | .zero | .mov | .cmp | .isnull | .not | .and | .or | .xor | .neg | .add | .sub | .inc | .dec | .mul | .div
  | .rdrem | .bits => .r

/-- The mask column of rule R86. -/
def Op.mask : Op → Word
  | .zero => 0xFF0FFFFF#32
  | .mov => 0xFF00FFFF#32
  | .ldu64 => 0xFF0FFFFF#32
  | .ldraw => 0xFF0FFFFF#32
  | .straw => 0xFFF0FFFF#32
  | .hexdec => 0xFF0FFFFF#32
  | .hexenc => 0xFFF0FFFF#32
  | .cmp => 0xFFF00FFF#32
  | .isnull => 0xFFF0FFFF#32
  | .not => 0xFF00FFFF#32
  | .and => 0xFF000FFF#32
  | .or => 0xFF000FFF#32
  | .xor => 0xFF000FFF#32
  | .shl => 0xFF00FFFF#32
  | .shr => 0xFF00FFFF#32
  | .neg => 0xFF00FFFF#32
  | .add => 0xFF000FFF#32
  | .sub => 0xFF000FFF#32
  | .inc => 0xFF00FFFF#32
  | .dec => 0xFF00FFFF#32
  | .muls => 0xFF00FFFF#32
  | .mul => 0xFF000FFF#32
  | .div => 0xFF000FFF#32
  | .rdrem => 0xFF0FFFFF#32
  | .bits => 0xFFF0FFFF#32
  | .trunc256 => 0xFFF0FFFF#32

/-- The words of a command, a function of its opcode alone (rule R80). -/
def Op.words (op : Op) : Nat := op.format.words

/-- The rows of rule R86, in its order. -/
def Op.all : List Op :=
  [.zero, .mov, .ldu64, .ldraw, .straw, .hexdec, .hexenc, .cmp, .isnull,
   .not, .and, .or, .xor, .shl, .shr,
   .neg, .add, .sub, .inc, .dec, .muls, .mul, .div, .rdrem, .bits,
   .trunc256]

/-- The row a word0 selects: the one whose OPC equals bits [31:24] (rule R86); none for the illegal opcodes of
rule R88. -/
def Op.ofWord0 (w0 : Word) : Option Op := Op.all.find? fun op => op.code == opcOf w0

/-- A reserved bit of word0 is set: `(w & mask(op) & 0x00FFFFFF) != 0` (rules R87, R91). -/
def Op.reservedSet (op : Op) (w0 : Word) : Bool := w0 &&& op.mask &&& 0x00FFFFFF#32 != 0#32

/-- imm64 = X2 : X1 (rule R84). -/
def imm64Of (x1 x2 : Word) : BitVec 64 := BitVec.ofNat 64 (x1.toNat + 2 ^ 32 * x2.toNat)

/-- The command an opcode makes of its words (rules R82, R84, R86). A format without X1 or X2 ignores that
argument. -/
def Op.instr (op : Op) (w0 x1 x2 : Word) : Instr :=
  match op with
  | .zero => .zero (rdOf w0)
  | .mov => .mov (rdOf w0) (raOf w0)
  | .ldu64 => .ldu64 (rdOf w0) (imm64Of x1 x2)
  | .ldraw => .ldraw (rdOf w0) x1 x2
  | .straw => .straw (raOf w0) x1
  | .hexdec => .hexdec (rdOf w0) x1 x2
  | .hexenc => .hexenc (raOf w0) x1
  | .cmp => .cmp (raOf w0) (rbOf w0)
  | .isnull => .isnull (raOf w0)
  | .not => .not (rdOf w0) (raOf w0)
  | .and => .and (rdOf w0) (raOf w0) (rbOf w0)
  | .or => .or (rdOf w0) (raOf w0) (rbOf w0)
  | .xor => .xor (rdOf w0) (raOf w0) (rbOf w0)
  | .shl => .shl (rdOf w0) (raOf w0) x1
  | .shr => .shr (rdOf w0) (raOf w0) x1
  | .neg => .neg (rdOf w0) (raOf w0)
  | .add => .add (rdOf w0) (raOf w0) (rbOf w0)
  | .sub => .sub (rdOf w0) (raOf w0) (rbOf w0)
  | .inc => .inc (rdOf w0) (raOf w0)
  | .dec => .dec (rdOf w0) (raOf w0)
  | .muls => .muls (rdOf w0) (raOf w0) x1
  | .mul => .mul (rdOf w0) (raOf w0) (rbOf w0)
  | .div => .div (rdOf w0) (raOf w0) (rbOf w0)
  | .rdrem => .rdrem (rdOf w0)
  | .bits => .bits (raOf w0)
  | .trunc256 => .trunc256 (raOf w0) x1

/-- What the decoder says of a stream of command words. -/
inductive Decoded where
  /-- The stream begins with this command; `rest` are the words after it. -/
  | instr (i : Instr) (rest : List Word)
  /-- word0 has an OPC of rule R88. -/
  | illegalOpcode
  /-- word0 has a listed OPC and a reserved bit set (rule R87). -/
  | reservedField
  /-- word0 is sound (or there is none) and the command's last word is not there yet (rule R92). -/
  | incomplete
deriving DecidableEq, Repr

/-- The decoder, total on any words: word0 is looked up and checked, then the extension words its opcode asks
for are taken without inspection (rules R80, R91, R92). The class check of rule R89 needs the engine's width
and stands between the two checks of word0, in `Machine.checkWord0`. -/
def decode : List Word → Decoded
  | [] => .incomplete
  | w0 :: rest =>
    match Op.ofWord0 w0 with
    | none => .illegalOpcode
    | some op =>
      if op.reservedSet w0 then .reservedField
      else
        match op.format, rest with
        | .r, rest => .instr (op.instr w0 0#32 0#32) rest
        | .rx, x1 :: rest => .instr (op.instr w0 x1 0#32) rest
        | .rxx, x1 :: x2 :: rest => .instr (op.instr w0 x1 x2) rest
        | _, _ => .incomplete

/-- word0 from its fields: OPC<<24 | RD<<20 | RA<<16 | RB<<12, RES = 0 (rule R81). -/
def packWord0 (op : Op) (rd ra rb : Reg) : Word :=
  BitVec.ofNat 32 (op.code * 2 ^ 24 + rd.val * 2 ^ 20 + ra.val * 2 ^ 16 + rb.val * 2 ^ 12)

/-- word0 of a command: the fields it does not use are 0 (rule R87). -/
def Instr.word0 (i : Instr) : Word :=
  match i with
  | .zero rd | .ldu64 rd _ | .ldraw rd _ _ | .hexdec rd _ _ | .rdrem rd => packWord0 i.op rd 0 0
  | .straw ra _ | .hexenc ra _ | .isnull ra | .bits ra | .trunc256 ra _ => packWord0 i.op 0 ra 0
  | .cmp ra rb => packWord0 i.op 0 ra rb
  | .mov rd ra | .not rd ra | .shl rd ra _ | .shr rd ra _ | .neg rd ra | .inc rd ra | .dec rd ra
  | .muls rd ra _ => packWord0 i.op rd ra 0
  | .and rd ra rb | .or rd ra rb | .xor rd ra rb | .add rd ra rb | .sub rd ra rb | .mul rd ra rb
  | .div rd ra rb => packWord0 i.op rd ra rb

/-- The extension words of a command (rules R82, R84). -/
def Instr.extWords (i : Instr) : List Word :=
  match i with
  | .ldu64 _ imm64 => [BitVec.ofNat 32 imm64.toNat, BitVec.ofNat 32 (imm64.toNat / 2 ^ 32)]
  | .ldraw _ addr len | .hexdec _ addr len => [addr, len]
  | .straw _ addr | .hexenc _ addr | .trunc256 _ addr => [addr]
  | .shl _ _ imm32 | .shr _ _ imm32 | .muls _ _ imm32 => [imm32]
  | .zero _ | .mov _ _ | .cmp _ _ | .isnull _ | .not _ _ | .and _ _ _ | .or _ _ _ | .xor _ _ _ | .neg _ _
  | .add _ _ _ | .sub _ _ _ | .inc _ _ | .dec _ _ | .mul _ _ _ | .div _ _ _ | .rdrem _ | .bits _ => []

/-- The encoder: the words a host writes to CMD to issue a command, in order (rule R80). -/
def encode (i : Instr) : List Word := i.word0 :: i.extWords

/-- The words of an opcode-table row: bit 0 of `w` is the least significant bit of word0, X1 is bits 63..32 and
X2 bits 95..64; every bit at or above `nbits` is 0. -/
def tableWords (nbits w : Nat) : List Word :=
  let n := w % 2 ^ nbits
  [BitVec.ofNat 32 n, BitVec.ofNat 32 (n / 2 ^ 32), BitVec.ofNat 32 (n / 2 ^ 64)]

/-- The command the decoder reads from a table row's word. -/
def decodeTableWord (nbits w : Nat) : Option Instr :=
  match decode (tableWords nbits w) with
  | .instr i _ => some i
  | .illegalOpcode | .reservedField | .incomplete => none

end Sys2Proof
end

