-- ==== Sys2Proof/Machine/State.lean ====
section
/-!
DEFINITION. The state of one engine (rules R20 to R40), the host transactions it has still to answer and the
answers it has given (rules R61 to R64), and the state after reset (rule R40).
-/

namespace Sys2Proof.Machine

/-- The fault causes of rule R241. CAUSE values 6 to 255 are never written, so CAUSE is this enumeration
(93_implementation_defined.md I12, log entry 15). -/
inductive Cause where
  | none
  | illegalOpcode
  | classDisabled
  | rsvdField
  | rawLength
  | bufferRange
deriving DecidableEq, Repr

/-- One host transaction (rules R20, R61, R62): a read, or a write, of `size` bytes at an absolute host address.
`data` is the written value: bits [8·size−1:0] of it are the bytes moved, byte 0 least significant. -/
inductive HostTxn where
  | read (addr size : Nat)
  | write (addr size : Nat) (data : Word)
deriving DecidableEq, Repr

/-- Why a step can stop with a fault. The engine's own faults are no stops: they are the FAULTED state of rule
R242, a next state. -/
inductive Fault where
  /-- Raised by the command port (`Machine.assemble`) when PEND holds words that rules R91 and R92 never leave
  there (no sound word0 of a longer command first). No state that keeps `State.Inv` raises it. SAFE: the model
  stops where the spec gives the state no meaning (log entry 7). -/
  | pendCorrupt
deriving DecidableEq, Repr

/-- Why a step has no meaning for what it is asked. -/
inductive Refusal where
  /-- The command has no meaning in the model. Raised by no arm of `exec`: every command is modelled. -/
  | notModelled (mnemonic : String)
  /-- A host access at a reserved offset 0x020 – 0xFFF (rule R38). Raised by the host port. SAFE: the spec refuses
  it. -/
  | hostReservedOffset
  /-- A host register access that is not an aligned 32-bit one (rule R62). Raised by the host port. SAFE: the
  spec refuses it. -/
  | hostRegisterAccess
  /-- A host access of the TBUF window whose width is not 1, 2 or 4 bytes, or that extends past the window's end
  (rules R38, R62). Raised by the host port. SAFE: the spec refuses it. -/
  | hostTbufAccess
  /-- A host access below HOST_BASE, outside this engine's window (rule R61). Raised by the host port. SAFE: the
  spec gives the engine no answer to it (log entry 9). -/
  | hostOutsideWindow
deriving DecidableEq, Repr

/-- The state of one engine: the record of rule R39, the parameters of rule R8 that never change, and the
model's own fields `epoch`, `inbox` and `outbox`. -/
structure State where
  /-- WIDTH, NARROW_BITWISE, TBUF_BYTES, HOST_BASE (rules R8, R61): kept by every step (log entry 1). -/
  cfg : Config
  /-- V0 … V15 (rule R21). -/
  v : Vector Blob 16
  /-- REM (rule R25). -/
  rem : Blob
  /-- SR (rule R26). -/
  sr : Word
  /-- The flags EQ, LT, GT, Z, DZ (rule R24). -/
  eq : Bool
  lt : Bool
  gt : Bool
  z : Bool
  dz : Bool
  /-- FAULTED, CAUSE, FWORD (rule R27). -/
  faulted : Bool
  cause : Cause
  fword : Word
  /-- PEND, the words received of a command not yet complete, word0 first (rule R28). -/
  pend : List Word
  /-- TBUF (rules R29, R51): the bytes written since the last reset, by rising address. -/
  tbuf : List Host.Cell
  /-- MODEL'S OWN: how many resets there have been, which selects the draws of `Config.tbufDraw` (rule R281, log
  entry 5). -/
  epoch : Nat
  /-- MODEL'S OWN: the host transactions received and not yet answered, in arrival order (rule R63, log entry
  2). -/
  inbox : List HostTxn
  /-- MODEL'S OWN: the data of the host reads answered, in order (log entry 2). -/
  outbox : List Word
deriving DecidableEq, Repr

/-- The engine of a configuration after power-on: every field at the value of rule R40. No host transaction has
arrived and TBUF lists nothing: each of its bytes is a draw. -/
def State.resetOf (c : Config) : State :=
  { cfg := c
    v := Vector.replicate 16 (List.replicate c.limbs 0#32)
    rem := List.replicate c.limbs 0#32
    sr := 0#32
    eq := false
    lt := false
    gt := false
    z := false
    dz := false
    faulted := false
    cause := .none
    fword := 0#32
    pend := []
    tbuf := []
    epoch := 0
    inbox := []
    outbox := [] }

/-- The machine right after reset: the FWB-512 of `Config.fwb512` (log entry 1). -/
def State.reset : State := State.resetOf Config.fwb512

end Sys2Proof.Machine
end

