-- ==== Sys2Proof/Machine/Ops.lean ====
section
/-!
DEFINITION. The named operations of rule R12 over registers and the transfer buffer, completing a command (rule
R97), taking a fault (rule R242), and reset, the one way out of it (rules R245, R281).
-/

namespace Sys2Proof.Machine

/-- What a command and a step answer. -/
abbrev Result := Host.Outcome State Fault Refusal

/-! ## Value registers (rules R21, R22) -/

/-- `V[i]`. -/
def State.reg (s : State) (r : Reg) : Blob := s.v[r]

/-- `V[i] <- b`. -/
def State.setReg (s : State) (r : Reg) (b : Blob) : State := { s with v := s.v.set r b }

/-! ## The transfer buffer as a list of cells (rules R51, R53) -/

/-- The byte listed at an address, none where nothing is listed. -/
def cellAt (a : Nat) : List Host.Cell → Option Byte
  | [] => none
  | (k, b) :: cells => if k = a then some b else cellAt a cells

/-- Lists a byte at an address, keeping the addresses strictly rising. -/
def putCell (a : Nat) (b : Byte) : List Host.Cell → List Host.Cell
  | [] => [(a, b)]
  | (k, c) :: cells =>
    if a < k then (a, b) :: (k, c) :: cells
    else if a = k then (a, b) :: cells
    else (k, c) :: putCell a b cells

/-- The canonical form: addresses strictly rising. An unlisted address holds no listed byte, so no entry can equal
one (log entry 6). -/
abbrev Memory.wf (cells : List Host.Cell) : Prop := (cells.map Prod.fst).Pairwise (· < ·)

/-- Lists the bytes at consecutive addresses. -/
def putBytes : Nat → List Byte → List Host.Cell → List Host.Cell
  | _, [], cells => cells
  | a, b :: bs, cells => putBytes (a + 1) bs (putCell a b cells)

/-- What an unlisted address reads as: the draw of the last reset (rules R40, R281). -/
def State.drawnByte (s : State) (a : Nat) : Byte := Config.tbufDraw s.epoch a

/-- TBUF[a]. -/
def State.tbufByte (s : State) (a : Nat) : Byte := (cellAt a s.tbuf).getD (s.drawnByte a)

/-- `MemRead(a, n)` as a byte list (rule R53). -/
def State.memRead (s : State) (a : Nat) : Nat → List Byte
  | 0 => []
  | n + 1 => s.tbufByte a :: s.memRead (a + 1) n

/-- `MemWrite(a, n, bytes)` (rule R53). -/
def State.memWrite (s : State) (a : Nat) (bytes : List Byte) : State :=
  { s with tbuf := putBytes a bytes s.tbuf }

/-- `CheckRange(a, n)` holds: a + n ≤ TBUF_BYTES, exact, with no wrap (rule R53). -/
def State.inRange (s : State) (a n : Nat) : Bool := decide (a + n ≤ s.cfg.tbufBytes)

/-! ## The two ways a command ends (rules R94, R240) -/

/-- A command completes: DZ ← 0 (rule R97). A DIV by zero ends by `signalDivZero` instead. -/
def State.complete (s : State) : Result := .next { s with dz := false }

/-- `signal DivZero`: the command completes with DZ = 1 and no other effect (rules R167, R247). -/
def State.signalDivZero (s : State) : Result := .next { s with dz := true }

/-- Fault entry (rule R242): FAULTED, CAUSE and FWORD are written, PEND is emptied, nothing else changes. -/
def State.faultEntry (s : State) (c : Cause) (word0 : Word) : State :=
  { s with faulted := true, cause := c, fword := word0, pend := [] }

/-- `raise Fault(c)` by a command (rules R12, R242). -/
def State.raiseFault (s : State) (c : Cause) (i : Instr) : Result := .next (s.faultEntry c i.word0)

/-! ## Reset (rules R245, R280, R281) -/

/-- The effect of a reset: every piece of the engine's state takes its value of rule R40, TBUF bytes are drawn
anew. What hosts have sent and been told is no state of the engine and stays (log entry 13). -/
def State.engineReset (s : State) : State :=
  { State.resetOf s.cfg with epoch := s.epoch + 1, inbox := s.inbox, outbox := s.outbox }

end Sys2Proof.Machine
end

