-- ==== Sys2Proof/Machine/Operands.lean ====
section
/-!
DEFINITION. The operand forms of rule R84, all unsigned, none sign-extended, none scaled. (A register operand is
`State.reg`, rule R83; imm64 = X2 : X1 is joined by the decoder, `imm64Of`.)
-/

namespace Sys2Proof.Machine

/-- imm32 as a shift amount, 0 … 2^32 − 1 (rules R84, R144). -/
def shiftAmount (imm32 : Word) : Nat := imm32.toNat

/-- A TBUF byte address (rule R84). -/
def addrOf (addr : Word) : Nat := addr.toNat

/-- A byte count (rule R84). -/
def lenOf (len : Word) : Nat := len.toNat

/-- zext_N(imm64): limb 0 = X1, limb 1 = X2, limbs 2 … L−1 = 0 (rules R10, R112). -/
def State.zext (s : State) (imm64 : BitVec 64) : Blob := blob s.cfg.limbs imm64.toNat

end Sys2Proof.Machine
end

