-- ==== Sys2Proof/Machine/Arith.lean ====
section
/-!
DEFINITION. The commands of 43_arithmetic.md: NEG, ADD, SUB, INC, DEC, MULS, MUL, DIV, RDREM, BITS.
-/

namespace Sys2Proof.Machine

/-- NEG (rule R160). -/
def execNeg (rd ra : Reg) (s : State) : Result := (s.setReg rd (negBlob (s.reg ra))).complete

/-- ADD (rule R161). -/
def execAdd (rd ra rb : Reg) (s : State) : Result := (s.setReg rd (addBlob (s.reg ra) (s.reg rb))).complete

/-- SUB (rule R162). -/
def execSub (rd ra rb : Reg) (s : State) : Result := (s.setReg rd (subBlob (s.reg ra) (s.reg rb))).complete

/-- INC (rule R163). -/
def execInc (rd ra : Reg) (s : State) : Result := (s.setReg rd (incBlob (s.reg ra))).complete

/-- DEC (rule R164). -/
def execDec (rd ra : Reg) (s : State) : Result := (s.setReg rd (decBlob (s.reg ra))).complete

/-- MULS (rule R165). -/
def execMuls (rd ra : Reg) (imm32 : Word) (s : State) : Result :=
  (s.setReg rd (mulsBlob (s.reg ra) imm32)).complete

/-- MUL (rule R166). -/
def execMul (rd ra rb : Reg) (s : State) : Result := (s.setReg rd (mulBlob (s.reg ra) (s.reg rb))).complete

/-- DIV (rule R167): the quotient to V[rd], the remainder to REM; a zero divisor signals DivZero. -/
def execDiv (rd ra rb : Reg) (s : State) : Result :=
  match divBlob (s.reg ra) (s.reg rb) with
  | none => s.signalDivZero
  | some (q, r) => { s.setReg rd q with rem := r }.complete

/-- RDREM (rule R168). -/
def execRdrem (rd : Reg) (s : State) : Result := (s.setReg rd s.rem).complete

/-- BITS (rule R169). -/
def execBits (ra : Reg) (s : State) : Result :=
  { s with sr := BitVec.ofNat 32 (bitsBlob (s.reg ra)) }.complete

end Sys2Proof.Machine
end

