-- ==== Sys2Proof/Machine/Bitwise.lean ====
section
/-!
DEFINITION. The commands of 42_bitwise_shift.md: NOT, AND, OR, XOR, SHL, SHR.
-/

namespace Sys2Proof.Machine

/-- NOT (rule R140). -/
def execNot (rd ra : Reg) (s : State) : Result := (s.setReg rd (notBlob (s.reg ra))).complete

/-- AND (rule R141). -/
def execAnd (rd ra rb : Reg) (s : State) : Result := (s.setReg rd (andBlob (s.reg ra) (s.reg rb))).complete

/-- OR (rule R142). -/
def execOr (rd ra rb : Reg) (s : State) : Result := (s.setReg rd (orBlob (s.reg ra) (s.reg rb))).complete

/-- XOR (rule R143). -/
def execXor (rd ra rb : Reg) (s : State) : Result := (s.setReg rd (xorBlob (s.reg ra) (s.reg rb))).complete

/-- SHL (rule R144): every amount is defined, none faults (90_conflicts.md C6). -/
def execShl (rd ra : Reg) (imm32 : Word) (s : State) : Result :=
  (s.setReg rd (shlBlob (s.reg ra) (shiftAmount imm32))).complete

/-- SHR (rule R145). -/
def execShr (rd ra : Reg) (imm32 : Word) (s : State) : Result :=
  (s.setReg rd (shrBlob (s.reg ra) (shiftAmount imm32))).complete

end Sys2Proof.Machine
end

