-- ==== Sys2Proof/Machine/Flags.lean ====
section
/-!
DEFINITION. The flag computations of rule R24: EQ, LT, GT by CMP (rule R116) and Z by ISNULL (rule R115). DZ is
written where a command ends (`State.complete`, `State.signalDivZero`); no other command computes a flag.
-/

namespace Sys2Proof.Machine

/-- (EQ, LT, GT) from a comparison (rule R116). -/
def State.setOrder (s : State) (o : Ordering) : State :=
  { s with eq := decide (o = .eq), lt := decide (o = .lt), gt := decide (o = .gt) }

/-- FLAGS.Z (rule R115). -/
def State.setNull (s : State) (b : Bool) : State := { s with z := b }

end Sys2Proof.Machine
end

