-- ==== Sys2Proof/Machine/Construct.lean ====
section
/-!
DEFINITION. The commands of 41_construction_compare.md: ZERO, MOV, LDU64, LDRAW, STRAW, ISNULL, CMP.
-/

namespace Sys2Proof.Machine

/-- ZERO (rule R110). -/
def execZero (rd : Reg) (s : State) : Result := (s.setReg rd (zeroBlob s.cfg.limbs)).complete

/-- MOV (rule R111). -/
def execMov (rd ra : Reg) (s : State) : Result := (s.setReg rd (s.reg ra)).complete

/-- LDU64 (rule R112). -/
def execLdu64 (rd : Reg) (imm64 : BitVec 64) (s : State) : Result := (s.setReg rd (s.zext imm64)).complete

/-- LDRAW (rule R113): RAW_LENGTH is checked before BUFFER_RANGE (rule R246). -/
def execLdraw (rd : Reg) (addr len : Word) (s : State) : Result :=
  if lenOf len ≠ s.cfg.rawBytes then s.raiseFault .rawLength (.ldraw rd addr len)
  else if s.inRange (addrOf addr) s.cfg.rawBytes then
    (s.setReg rd (fromRaw (s.memRead (addrOf addr) s.cfg.rawBytes))).complete
  else s.raiseFault .bufferRange (.ldraw rd addr len)

/-- STRAW (rule R114). -/
def execStraw (ra : Reg) (addr : Word) (s : State) : Result :=
  if s.inRange (addrOf addr) s.cfg.rawBytes then (s.memWrite (addrOf addr) (raw (s.reg ra))).complete
  else s.raiseFault .bufferRange (.straw ra addr)

/-- ISNULL (rule R115). -/
def execIsnull (ra : Reg) (s : State) : Result := (s.setNull (isNull (s.reg ra))).complete

/-- CMP (rule R116). -/
def execCmp (ra rb : Reg) (s : State) : Result := (s.setOrder (cmpBlob (s.reg ra) (s.reg rb))).complete

end Sys2Proof.Machine
end

