-- ==== Sys2Proof/Machine/Hex.lean ====
section
/-!
DEFINITION. The hexadecimal codec of 44_hex_codec.md on byte lists (rules R200 to R203).
-/

namespace Sys2Proof.Machine

/-- hexval (rule R200): the digit a byte spells, none for every other byte. -/
def hexVal (c : Byte) : Option Nat :=
  if 0x30#8 ≤ c ∧ c ≤ 0x39#8 then some (c.toNat - 0x30)
  else if 0x61#8 ≤ c ∧ c ≤ 0x66#8 then some (c.toNat - 0x61 + 10)
  else if 0x41#8 ≤ c ∧ c ≤ 0x46#8 then some (c.toNat - 0x41 + 10)
  else none

/-- hexchar (rule R200): the lowercase character of a digit 0 … 15. -/
def hexChar (d : Nat) : Byte :=
  if d ≤ 9 then BitVec.ofNat 8 (0x30 + d) else BitVec.ofNat 8 (0x61 + d - 10)

/-- WS (rule R201). -/
def isSpace (c : Byte) : Bool :=
  c == 0x20#8 || c == 0x09#8 || c == 0x0A#8 || c == 0x0B#8 || c == 0x0C#8 || c == 0x0D#8

/-- The text of a byte: high nibble first (rule R202). -/
def hexByte (b : Byte) : List Byte := [hexChar (b.toNat / 16), hexChar (b.toNat % 16)]

/-- The text HEXENC writes: the raw bytes, most significant first, two characters each (rule R202). -/
def hexText (v : Blob) : List Byte := (raw v).reverse.flatMap hexByte

/-- The text past the optional "0x" or "0X" (rule R203). A text that ends inside the prefix has none: a position
past the end reads as 0x00. -/
def dropPrefix : List Byte → List Byte
  | c0 :: c1 :: rest => if c0 = 0x30#8 ∧ (c1 = 0x78#8 ∨ c1 = 0x58#8) then rest else c0 :: c1 :: rest
  | text => text

/-- The digits of the run at the head of a text, most significant first (rule R203): the run ends at the first
byte that is no digit, or at the end of the text. -/
def digitRun : List Byte → List Nat
  | [] => []
  | c :: rest =>
    match hexVal c with
    | some d => d :: digitRun rest
    | none => []

/-- Bytes from nibbles, least significant nibble first (rule R203): a leftover digit is the low nibble of the
next byte (90_conflicts.md C2). -/
def packNibbles : List Nat → List Byte
  | [] => []
  | [lo] => [BitVec.ofNat 8 lo]
  | lo :: hi :: rest => BitVec.ofNat 8 (lo + 16 * hi) :: packNibbles rest

/-- The first `n` of the bytes, zero-filled to `n` (rule R203: "the buffer is zero-filled before parsing", j <
NB). -/
def fillBytes (n : Nat) (bytes : List Byte) : List Byte :=
  bytes.take n ++ List.replicate (n - bytes.length) 0#8

/-- The digit run HEXDEC finds in a text: after optional leading whitespace and an optional prefix (rule R203). -/
def hexDigits (text : List Byte) : List Nat := digitRun (dropPrefix (text.dropWhile isSpace))

/-- The value HEXDEC makes of a text, `n` raw bytes wide (rule R203): the run is consumed from its end. -/
def hexParse (n : Nat) (text : List Byte) : Blob := fromRaw (fillBytes n (packNibbles (hexDigits text).reverse))

end Sys2Proof.Machine
end

