-- ==== Sys2Proof/Machine/HexCodec.lean ====
section
/-!
DEFINITION. The commands of 44_hex_codec.md: HEXENC, HEXDEC.
-/

namespace Sys2Proof.Machine

/-- HEXENC (rule R202). -/
def execHexenc (ra : Reg) (addr : Word) (s : State) : Result :=
  if s.inRange (addrOf addr) (2 * s.cfg.rawBytes) then
    (s.memWrite (addrOf addr) (hexText (s.reg ra))).complete
  else s.raiseFault .bufferRange (.hexenc ra addr)

/-- HEXDEC (rule R203). -/
def execHexdec (rd : Reg) (addr len : Word) (s : State) : Result :=
  if s.inRange (addrOf addr) (lenOf len) then
    (s.setReg rd (hexParse s.cfg.rawBytes (s.memRead (addrOf addr) (lenOf len)))).complete
  else s.raiseFault .bufferRange (.hexdec rd addr len)

end Sys2Proof.Machine
end

