-- ==== Sys2Proof/Machine/Trunc.lean ====
section
/-!
DEFINITION. The command of 45_named_types.md: TRUNC256.
-/

namespace Sys2Proof.Machine

/-- TRUNC256 (rule R232): the low 32 raw bytes of a 512-bit value. -/
def execTrunc256 (ra : Reg) (addr : Word) (s : State) : Result :=
  if s.inRange (addrOf addr) 32 then (s.memWrite (addrOf addr) ((raw (s.reg ra)).take 32)).complete
  else s.raiseFault .bufferRange (.trunc256 ra addr)

end Sys2Proof.Machine
end

