-- ==== Sys2Proof/Machine/Dispatch.lean ====
section
/-!
DEFINITION. `Execute(cmd)` (rule R94): one arm per command, each the rule of its opcode.
-/

namespace Sys2Proof.Machine

def exec (i : Instr) (s : State) : Host.Outcome State Fault Refusal :=
  match i with
  | .zero rd => Sys2Proof.Machine.execZero rd s
  | .mov rd ra => Sys2Proof.Machine.execMov rd ra s
  | .ldu64 rd imm64 => Sys2Proof.Machine.execLdu64 rd imm64 s
  | .ldraw rd addr len => Sys2Proof.Machine.execLdraw rd addr len s
  | .straw ra addr => Sys2Proof.Machine.execStraw ra addr s
  | .hexdec rd addr len => Sys2Proof.Machine.execHexdec rd addr len s
  | .hexenc ra addr => Sys2Proof.Machine.execHexenc ra addr s
  | .cmp ra rb => Sys2Proof.Machine.execCmp ra rb s
  | .isnull ra => Sys2Proof.Machine.execIsnull ra s
  | .not rd ra => Sys2Proof.Machine.execNot rd ra s
  | .and rd ra rb => Sys2Proof.Machine.execAnd rd ra rb s
  | .or rd ra rb => Sys2Proof.Machine.execOr rd ra rb s
  | .xor rd ra rb => Sys2Proof.Machine.execXor rd ra rb s
  | .shl rd ra imm32 => Sys2Proof.Machine.execShl rd ra imm32 s
  | .shr rd ra imm32 => Sys2Proof.Machine.execShr rd ra imm32 s
  | .neg rd ra => Sys2Proof.Machine.execNeg rd ra s
  | .add rd ra rb => Sys2Proof.Machine.execAdd rd ra rb s
  | .sub rd ra rb => Sys2Proof.Machine.execSub rd ra rb s
  | .inc rd ra => Sys2Proof.Machine.execInc rd ra s
  | .dec rd ra => Sys2Proof.Machine.execDec rd ra s
  | .muls rd ra imm32 => Sys2Proof.Machine.execMuls rd ra imm32 s
  | .mul rd ra rb => Sys2Proof.Machine.execMul rd ra rb s
  | .div rd ra rb => Sys2Proof.Machine.execDiv rd ra rb s
  | .rdrem rd => Sys2Proof.Machine.execRdrem rd s
  | .bits ra => Sys2Proof.Machine.execBits ra s
  | .trunc256 ra addr => Sys2Proof.Machine.execTrunc256 ra addr s

end Sys2Proof.Machine
end

