-- ==== Sys2Proof/Machine/Port.lean ====
section
/-!
DEFINITION. The host port: the command port CMD (rules R91 to R93), the host register block (rules R30 to R38)
and the TBUF window (rules R61, R62). Taking one host transaction is one step of the engine (rule R20).
-/

namespace Sys2Proof.Machine

/-! ## The command port -/

/-- The checks of word0 on its arrival, in the order rules R91 and R246 give; the first that fails is the cause. -/
def checkWord0 (c : Config) (w : Word) : Except Cause Op :=
  match Op.ofWord0 w with
  | none => .error .illegalOpcode
  | some op =>
    if c.classEnabled op.cls = false then .error .classDisabled
    else if op.reservedSet w then .error .rsvdField
    else .ok op

/-- The words received so far are `cmd`: a whole command leaves PEND and executes, a part of one becomes PEND
(rules R91, R92). No word0 that `checkWord0` refuses gets here; `pendCorrupt` is for a PEND no run produces (log
entry 7). -/
def assemble (cmd : List Word) (s : State) : Result :=
  match decode cmd with
  | .instr i [] => exec i { s with pend := [] }
  | .incomplete => .next { s with pend := cmd }
  | .instr _ (_ :: _) => .fault .pendCorrupt
  | .illegalOpcode => .fault .pendCorrupt
  | .reservedField => .fault .pendCorrupt

/-- A CMD write delivers a word: dropped while FAULTED (rule R93), word0 of a command while PEND is empty (rule
R91), an extension word taken without inspection otherwise (rule R92). -/
def receiveWord (w : Word) (s : State) : Result :=
  if s.faulted then .next s
  else
    match s.pend with
    | [] =>
      match checkWord0 s.cfg w with
      | .error c => .next (s.faultEntry c w)
      | .ok _ => assemble [w] s
    | w0 :: ws => assemble (w0 :: ws ++ [w]) s

/-! ## The host register block -/

/-- A Bool as a field of a register. -/
def bitAt (b : Bool) (k : Nat) : Nat := if b then 2 ^ k else 0

/-- ID (rule R31): WIDTH, BITWISE, ARITH, TRUNC, NVREG = 16. -/
def idWord (c : Config) : Word :=
  BitVec.ofNat 32 (c.width.bits + bitAt (c.classEnabled .bitwise) 16 + bitAt (c.classEnabled .arith) 17 +
    bitAt (c.classEnabled .trunc) 18 + 16 * 2 ^ 24)

/-- STATUS (rule R33): EQ, LT, GT, Z, DZ, FAULT, PEND. -/
def statusWord (s : State) : Word :=
  BitVec.ofNat 32 (bitAt s.eq 0 + bitAt s.lt 1 + bitAt s.gt 2 + bitAt s.z 3 + bitAt s.dz 4 + bitAt s.faulted 8 +
    bitAt (!s.pend.isEmpty) 9)

/-- The code of a cause (rule R241). -/
def causeCode : Cause → Byte
  | .none => 0
  | .illegalOpcode => 1
  | .classDisabled => 2
  | .rsvdField => 3
  | .rawLength => 4
  | .bufferRange => 5

/-- The host registers of rule R30. -/
inductive HostReg where
  | id
  | tbufsz
  | cmd
  | status
  | cause
  | fword
  | sr
  | ctrl
deriving DecidableEq, Repr

/-- The register at an offset (rule R30): aligned 32-bit registers at 0x000 – 0x01C. -/
def hostRegAt (offset : Nat) : Option HostReg :=
  if offset = 0x000 then some .id
  else if offset = 0x004 then some .tbufsz
  else if offset = 0x008 then some .cmd
  else if offset = 0x00C then some .status
  else if offset = 0x010 then some .cause
  else if offset = 0x014 then some .fword
  else if offset = 0x018 then some .sr
  else if offset = 0x01C then some .ctrl
  else none

/-- What a host reads in a register (rules R30 to R37): write-only registers read as 0. -/
def hostRegRead (r : HostReg) (s : State) : Word :=
  match r with
  | .id => idWord s.cfg
  | .tbufsz => BitVec.ofNat 32 s.cfg.tbufBytes
  | .cmd => 0
  | .status => statusWord s
  | .cause => BitVec.ofNat 32 (causeCode s.cause).toNat
  | .fword => s.fword
  | .sr => s.sr
  | .ctrl => 0

/-- A host write to a register (rules R30, R34, R37): CMD delivers a word, CTRL with SRST = 1 resets, a read-only
register ignores it. -/
def hostRegWrite (r : HostReg) (data : Word) (s : State) : Result :=
  match r with
  | .cmd => receiveWord data s
  | .ctrl => if data.getLsbD 0 then .next s.engineReset else .next s
  | .id => .next s
  | .tbufsz => .next s
  | .status => .next s
  | .cause => .next s
  | .fword => .next s
  | .sr => .next s

/-! ## The TBUF window -/

/-- The bytes as one little-endian word (rule R62), zero-extended to the 32-bit answer (log entry 10). -/
def wordOfBytes (bytes : List Byte) : Word :=
  BitVec.ofNat 32 (bytes.foldr (fun b n => b.toNat + 2 ^ 8 * n) 0)

/-- The low `n` bytes of a word, byte 0 least significant (rule R62). -/
def bytesOfWord (n : Nat) (data : Word) : List Byte := (limbBytes data).take n

/-- A host access of the TBUF window that rule R62 allows: 1, 2 or 4 bytes, all in the window. -/
def tbufAccessOk (s : State) (i size : Nat) : Bool :=
  (size == 1 || size == 2 || size == 4) && decide (i + size ≤ s.cfg.tbufBytes)

/-! ## Address map (rules R30, R61) -/

/-- What an absolute host address and an access size reach in the engine's window, or why not (rules R38, R61,
R62). Alignment is that of the offset in the window (log entry 8). -/
inductive HostTarget where
  | reg (r : HostReg)
  | tbuf (i : Nat)
  | none (r : Refusal)
deriving DecidableEq, Repr

/-- The address map of rule R61. -/
def hostTarget (s : State) (addr size : Nat) : HostTarget :=
  if addr < s.cfg.hostBase then .none .hostOutsideWindow
  else
    let offset := addr - s.cfg.hostBase
    if offset < 0x020 then
      match hostRegAt offset, size with
      | some r, 4 => .reg r
      | _, _ => .none .hostRegisterAccess
    else if offset < 0x1000 then .none .hostReservedOffset
    else if tbufAccessOk s (offset - 0x1000) size then .tbuf (offset - 0x1000)
    else .none .hostTbufAccess

/-- The engine answers a host read with a word and changes nothing else (rule R60). -/
def State.answerRead (s : State) (w : Word) : State := { s with outbox := s.outbox ++ [w] }

/-- The engine takes one host transaction (rules R20, R63). -/
def takeTxn (t : HostTxn) (s : State) : Result :=
  match t with
  | .read addr size =>
    match hostTarget s addr size with
    | .reg r => .next (s.answerRead (hostRegRead r s))
    | .tbuf i => .next (s.answerRead (wordOfBytes (s.memRead i size)))
    | .none r => .refused r
  | .write addr size data =>
    match hostTarget s addr size with
    | .reg r => hostRegWrite r data s
    | .tbuf i => .next (s.memWrite i (bytesOfWord size data))
    | .none r => .refused r

/-- The engine takes the oldest host transaction it has not answered (rule R63); with none it is idle and its
state is retained (rules R254, R280). -/
def nextTxn (s : State) : Result :=
  match s.inbox with
  | [] => .next s
  | t :: ts => takeTxn t { s with inbox := ts }

/-- The host transaction that writes a word to CMD (rules R30, R34). -/
def cmdWrite (c : Config) (w : Word) : HostTxn := .write (c.hostBase + 0x008) 4 w

end Sys2Proof.Machine
end

