-- ==== Sys2Proof/Machine/Step.lean ====
section
/-!
DEFINITION. The step: one host transaction (rules R20, R63); and how a table row's word is put where the next step
takes its command.
-/

namespace Sys2Proof.Machine

/-- One step of the engine. -/
def step (s : State) : Host.Outcome State Fault Refusal := nextTxn s

/-- `s` with the command whose words are the table word `w` about to run: its last word is the next host
transaction, a CMD write, and its earlier words are in PEND, as they are once the engine has checked and received
them (rules R91, R92, R95). A word0 the engine refuses on arrival is the next CMD write itself. A program comes to
the engine only so, as host writes to CMD: there is no fetch (rule R23, log entry 3). -/
def State.withFetchWord (s : State) (nbits w : Nat) : State :=
  let words := tableWords nbits w
  let cmd :=
    match checkWord0 s.cfg (words.headD 0#32) with
    | .ok op => words.take op.words
    | .error _ => words.take 1
  { s with pend := cmd.dropLast, inbox := cmdWrite s.cfg (cmd.getLastD 0#32) :: s.inbox }

end Sys2Proof.Machine
end

