-- ==== Sys2Proof/Machine/Assembler.lean ====
section
/-!
DEFINITION. The pseudo-instructions of rule R100 and the assembler syntax of rule R99: from a line of text to the
commands it stands for. Nothing in the machine uses it; it names commands the way the spec writes them.
-/

namespace Sys2Proof.Machine

/-! ## Pseudo-instructions (rule R100) -/

/-- The pseudo-instructions of rule R100. `vt` is the scratch register. -/
inductive Pseudo where
  | clr (rd : Reg)
  | ldi (rd : Reg) (imm : BitVec 64)
  | nop
  | tst (ra : Reg)
  | sqr (rd ra : Reg)
  | muli (rd ra : Reg) (imm : Word)
  | addi (rd ra : Reg) (imm : BitVec 64) (vt : Reg)
  | subi (rd ra : Reg) (imm : BitVec 64) (vt : Reg)
  | divi (rd ra : Reg) (imm : BitVec 64) (vt : Reg)
  | cmpi (ra : Reg) (imm : BitVec 64) (vt : Reg)
  | divrem (vq vr ra rb : Reg)
deriving DecidableEq, Repr

/-- The expansion of a pseudo-instruction, none where its constraint fails (rule R100). -/
def Pseudo.expand : Pseudo → Option (List Instr)
  | .clr rd => some [.zero rd]
  | .ldi rd imm => some [.ldu64 rd imm]
  | .nop => some [.mov 0 0]
  | .tst ra => some [.isnull ra]
  | .sqr rd ra => some [.mul rd ra ra]
  | .muli rd ra imm => some [.muls rd ra imm]
  | .addi rd ra imm vt => if vt = ra then none else some [.ldu64 vt imm, .add rd ra vt]
  | .subi rd ra imm vt => if vt = ra then none else some [.ldu64 vt imm, .sub rd ra vt]
  | .divi rd ra imm vt => if vt = ra then none else some [.ldu64 vt imm, .div rd ra vt]
  | .cmpi ra imm vt => if vt = ra then none else some [.ldu64 vt imm, .cmp ra vt]
  | .divrem vq vr ra rb => if vq = vr then none else some [.div vq ra rb, .rdrem vr]

/-! ## Text (rule R99) -/

/-- An operand as it is written: `V3`, `#10`, `[0x40]` (rule R99). -/
inductive Operand where
  | reg (r : Reg)
  | imm (n : Nat)
  | mem (n : Nat)
deriving DecidableEq, Repr

/-- A digit of a base up to 16, of either case. -/
def digitOf (base : Nat) (c : Char) : Option Nat :=
  let n := c.toNat
  let d := if 48 ≤ n ∧ n ≤ 57 then n - 48
    else if 97 ≤ n ∧ n ≤ 102 then n - 87
    else if 65 ≤ n ∧ n ≤ 70 then n - 55
    else base
  if d < base then some d else none

/-- The number a digit text spells after `acc`; none if a character is no digit. -/
def digitsFrom (base : Nat) : Nat → List Char → Option Nat
  | acc, [] => some acc
  | acc, c :: cs =>
    match digitOf base c with
    | some d => digitsFrom base (acc * base + d) cs
    | none => none

/-- A decimal or `0x`-prefixed hexadecimal unsigned integer (rule R99). -/
def numberOf : List Char → Option Nat
  | [] => none
  | '0' :: 'x' :: c :: cs => digitsFrom 16 0 (c :: cs)
  | c :: cs => digitsFrom 10 0 (c :: cs)

/-- Blanks between tokens (log entry 17). -/
def isBlank (c : Char) : Bool := c == ' ' || c == '\t' || c == '\r'

/-- A text without the blanks around it. -/
def trimBlanks (cs : List Char) : List Char := ((cs.dropWhile isBlank).reverse.dropWhile isBlank).reverse

/-- The upper-case form of a letter: mnemonics and register names are case-insensitive (rule R99). -/
def upperChar (c : Char) : Char :=
  if 97 ≤ c.toNat ∧ c.toNat ≤ 122 then Char.ofNat (c.toNat - 32) else c

/-- One operand (rule R99). -/
def operandOf (text : List Char) : Option Operand :=
  match trimBlanks text with
  | '#' :: cs => (numberOf cs).map .imm
  | '[' :: cs =>
    match cs.reverse with
    | ']' :: inner => (numberOf (trimBlanks inner.reverse)).map .mem
    | _ => none
  | c :: d :: cs =>
    if upperChar c = 'V' ∧ ¬(d = '0' ∧ cs ≠ []) then
      match digitsFrom 10 0 (d :: cs) with
      | some n => if h : n < 16 then some (.reg ⟨n, h⟩) else none
      | none => none
    else none
  | _ => none

/-- The pieces of a text between commas. -/
def splitCommas : List Char → List (List Char)
  | [] => [[]]
  | c :: cs =>
    if c = ',' then [] :: splitCommas cs
    else
      match splitCommas cs with
      | [] => [[c]]
      | p :: ps => (c :: p) :: ps

/-- The operands of a line, none if one of them is malformed; a blank text has no operand. -/
def operandsOf (text : List Char) : Option (List Operand) :=
  if trimBlanks text = [] then some [] else (splitCommas text).mapM operandOf

/-- An immediate in a field of `k` bits; one that does not fit is an assembly error (rule R99). -/
def fit (k n : Nat) : Option (BitVec k) := if n < 2 ^ k then some (BitVec.ofNat k n) else none

/-- The mnemonics of rule R86 with their opcodes. -/
def mnemonics : List (String × Op) :=
  [("ZERO", .zero), ("MOV", .mov), ("LDU64", .ldu64), ("LDRAW", .ldraw), ("STRAW", .straw), ("HEXDEC", .hexdec),
    ("HEXENC", .hexenc), ("CMP", .cmp), ("ISNULL", .isnull),
   ("NOT", .not), ("AND", .and), ("OR", .or), ("XOR", .xor), ("SHL", .shl), ("SHR", .shr),
   ("NEG", .neg), ("ADD", .add), ("SUB", .sub), ("INC", .inc), ("DEC", .dec), ("MULS", .muls), ("MUL", .mul),
    ("DIV", .div), ("RDREM", .rdrem), ("BITS", .bits),
   ("TRUNC256", .trunc256)]

/-- A command from its opcode and operands, in the order rule R99 gives: destination, sources, immediates. -/
def commandOf : Op → List Operand → Option Instr
  | .zero, [.reg d] => some (.zero d)
  | .mov, [.reg d, .reg a] => some (.mov d a)
  | .ldu64, [.reg d, .imm n] => (fit 64 n).map (.ldu64 d)
  | .ldraw, [.reg d, .mem m, .imm n] => (fit 32 m).bind fun addr => (fit 32 n).map (.ldraw d addr)
  | .straw, [.reg a, .mem m] => (fit 32 m).map (.straw a)
  | .hexdec, [.reg d, .mem m, .imm n] => (fit 32 m).bind fun addr => (fit 32 n).map (.hexdec d addr)
  | .hexenc, [.reg a, .mem m] => (fit 32 m).map (.hexenc a)
  | .cmp, [.reg a, .reg b] => some (.cmp a b)
  | .isnull, [.reg a] => some (.isnull a)
  | .not, [.reg d, .reg a] => some (.not d a)
  | .and, [.reg d, .reg a, .reg b] => some (.and d a b)
  | .or, [.reg d, .reg a, .reg b] => some (.or d a b)
  | .xor, [.reg d, .reg a, .reg b] => some (.xor d a b)
  | .shl, [.reg d, .reg a, .imm n] => (fit 32 n).map (.shl d a)
  | .shr, [.reg d, .reg a, .imm n] => (fit 32 n).map (.shr d a)
  | .neg, [.reg d, .reg a] => some (.neg d a)
  | .add, [.reg d, .reg a, .reg b] => some (.add d a b)
  | .sub, [.reg d, .reg a, .reg b] => some (.sub d a b)
  | .inc, [.reg d, .reg a] => some (.inc d a)
  | .dec, [.reg d, .reg a] => some (.dec d a)
  | .muls, [.reg d, .reg a, .imm n] => (fit 32 n).map (.muls d a)
  | .mul, [.reg d, .reg a, .reg b] => some (.mul d a b)
  | .div, [.reg d, .reg a, .reg b] => some (.div d a b)
  | .rdrem, [.reg d] => some (.rdrem d)
  | .bits, [.reg a] => some (.bits a)
  | .trunc256, [.reg a, .mem m] => (fit 32 m).map (.trunc256 a)
  | _, _ => none

/-- A pseudo-instruction from its name and operands (rule R100). -/
def pseudoOf (name : String) (ops : List Operand) : Option Pseudo :=
  match ops with
  | [] => if name = "NOP" then some .nop else none
  | [.reg r] => if name = "CLR" then some (.clr r) else if name = "TST" then some (.tst r) else none
  | [.reg d, .imm n] => if name = "LDI" then (fit 64 n).map (.ldi d) else none
  | [.reg d, .reg a] => if name = "SQR" then some (.sqr d a) else none
  | [.reg d, .reg a, .imm n] => if name = "MULI" then (fit 32 n).map (.muli d a) else none
  | [.reg a, .imm n, .reg t] => if name = "CMPI" then (fit 64 n).map (.cmpi a · t) else none
  | [.reg d, .reg a, .imm n, .reg t] =>
    if name = "ADDI" then (fit 64 n).map (.addi d a · t)
    else if name = "SUBI" then (fit 64 n).map (.subi d a · t)
    else if name = "DIVI" then (fit 64 n).map (.divi d a · t)
    else none
  | [.reg q, .reg r, .reg a, .reg b] => if name = "DIVREM" then some (.divrem q r a b) else none
  | _ => none

/-- The names of rule R100. -/
def pseudoNames : List String :=
  ["CLR", "LDI", "NOP", "TST", "SQR", "MULI", "ADDI", "SUBI", "DIVI", "CMPI", "DIVREM"]

/-- The commands one line of assembler text stands for, none for an assembly error (rules R99, R100): one command
or pseudo-instruction a line, `;` starts a comment, a blank line stands for no command. -/
def assembleLine (line : List Char) : Option (List Instr) :=
  let text := trimBlanks (line.takeWhile (· != ';'))
  if text = [] then some []
  else
    let name := (text.takeWhile fun c => !isBlank c).map upperChar
    match operandsOf (text.dropWhile fun c => !isBlank c) with
    | none => none
    | some ops =>
      match mnemonics.find? (·.1.toList == name), pseudoNames.find? (·.toList == name) with
      | some (_, op), _ => (commandOf op ops).map fun i => [i]
      | none, some p => (pseudoOf p ops).bind Pseudo.expand
      | none, none => none

end Sys2Proof.Machine
end

