-- ==== Sys2Proof/Safety.lean ====
section
/-!
DEFINITION. What the claims are stated in: the invariant every step keeps, and what ends a run (rules R288, R289).
-/

namespace Sys2Proof.Machine

/-- PEND is what rules R91 and R92 leave there: nothing, or a word0 the engine accepted with fewer words than its
command has (rule R28). -/
def pendOk (c : Config) (pend : List Word) : Prop :=
  ∀ w0 ws, pend = w0 :: ws → ∃ op, checkWord0 c w0 = .ok op ∧ ws.length + 1 < op.words

/-- The invariant of an engine's state. -/
structure State.Inv (s : State) : Prop where
  /-- TBUF_BYTES is in the range of rule R8. -/
  cfg_wf : s.cfg.wf
  /-- "the limb count is exactly N/32 and never changes" (rules R4, R21). -/
  reg_limbs : ∀ r : Reg, (s.reg r).length = s.cfg.limbs
  /-- REM is one N-bit register (rule R25). -/
  rem_limbs : s.rem.length = s.cfg.limbs
  /-- SR is an integer 0 … N (rule R26). -/
  sr_le : s.sr.toNat ≤ s.cfg.width.bits
  /-- At most one of EQ, LT, GT is 1 (rule R24: exactly one after a CMP, none after reset). -/
  one_order : ¬(s.eq = true ∧ s.lt = true) ∧ ¬(s.eq = true ∧ s.gt = true) ∧ ¬(s.lt = true ∧ s.gt = true)
  /-- CAUSE is 0 exactly while not faulted (rules R27, R241). -/
  cause_faulted : s.faulted = true ↔ s.cause ≠ .none
  /-- FWORD is 0 while not faulted (rule R27). -/
  fword_zero : s.faulted = false → s.fword = 0#32
  /-- "PEND is empty whenever FAULTED = 1" (rule R28). -/
  pend_faulted : s.faulted = true → s.pend = []
  /-- PEND is a proper beginning of an accepted command (rule R28). -/
  pend_ok : pendOk s.cfg s.pend
  /-- TBUF's cells are in canonical form. -/
  tbuf_wf : Memory.wf s.tbuf
  /-- Only the bytes 0 … TBUF_BYTES−1 exist (rule R51). -/
  tbuf_range : ∀ cell ∈ s.tbuf, cell.1 < s.cfg.tbufBytes

/-- The engine is quiescent (rule R288). -/
abbrev State.quiescent (s : State) : Prop := s.pend = []

/-- A run of a host program has ended: the engine is quiescent; "A run that ends with PEND non-empty has not ended"
(rule R289). That the host's reads, TBUF writes and CTRL writes are answered too, not its commands alone, is the
model's choice (DESIGN CHOICE, log entry 18). -/
abbrev State.runEnded (s : State) : Prop := s.inbox = [] ∧ s.quiescent

/-- The run ended normally (rule R289), judged by the state it ends in alone: FAULTED = 0. The rules do not say
whether a run is normal in which a command faulted, or a partial command was discarded, and a CTRL.SRST of the same
program cleared it; this calls it normal (DESIGN CHOICE, log entry 18). -/
abbrev State.endedNormally (s : State) : Prop := s.runEnded ∧ s.faulted = false

/-- The run has faulted: "that is not a normal end, whatever the registers hold" (rule R289). -/
abbrev State.endedFaulted (s : State) : Prop := s.runEnded ∧ s.faulted = true

end Sys2Proof.Machine
end

