-- ==== Sys2Proof/Certificates/Slice0/Obligations.lean ====
section
/-!
DEFINITION. The statements about the engine. A statement about a command quantifies over every state that keeps
`State.Inv` (so over every width, configuration and buffer content), and gives the whole next state: what is not
named in it is unchanged.
-/

namespace Sys2Proof.Claims

open Sys2Proof.Machine

/-! ## The words the statements use -/

/-- N, the width of the state's engine (rule R3). -/
def bitsN (s : State) : Nat := s.cfg.width.bits

/-- The command completes, its only effects being V[rd] ← the value x mod 2^N and DZ ← 0 (rules R94, R97). -/
def Writes (i : Instr) (s : State) (rd : Reg) (x : Nat) : Prop :=
  exec i s = .next { s with v := s.v.set rd (blob s.cfg.limbs x), dz := false }

/-- The command raises a fault: FAULTED, CAUSE and FWORD = the command's word0 are written, PEND is emptied,
nothing else changes (rule R242). -/
def Raises (i : Instr) (s : State) (c : Cause) : Prop :=
  exec i s = .next { s with faulted := true, cause := c, fword := i.word0, pend := [] }

/-- The command completes, its only effects being DZ ← 0 and the bytes TBUF[base + j] ← bytes j for j < n: every
other field is as before, and so does every other address read. -/
def Stores (i : Instr) (s : State) (base n : Nat) (bytes : Nat → Byte) : Prop :=
  ∃ t, exec i s = .next t ∧ { t with tbuf := s.tbuf } = { s with dz := false } ∧
    ∀ a, t.tbufByte a = if base ≤ a ∧ a < base + n then bytes (a - base) else s.tbufByte a

/-- Σ b[j]·2^(8j) over n bytes (rule R55). -/
def sumBytes (n : Nat) (b : Nat → Byte) : Nat := ∑ j ∈ Finset.range n, (b j).toNat * 2 ^ (8 * j)

/-- rd<<20, ra<<16, rb<<12: a register in its field of word0 (rule R81). -/
def atRd (r : Reg) : Word := BitVec.ofNat 32 r.val <<< 20
def atRa (r : Reg) : Word := BitVec.ofNat 32 r.val <<< 16
def atRb (r : Reg) : Word := BitVec.ofNat 32 r.val <<< 12

/-- The engine is ready for a command's first word: not faulted, PEND empty (rule R91). -/
def Ready (s : State) : Prop := s.faulted = false ∧ s.pend = []

/-- The oldest host transaction not answered writes w to CMD; `ts` are the ones after it (rule R34). -/
def NextWord (s : State) (w : Word) (ts : List HostTxn) : Prop := s.inbox = .write (s.cfg.hostBase + 0x008) 4 w :: ts

/-- The state once that transaction is taken and word0 `w` has raised a fault on arrival (rules R91, R242). -/
def faultedOn (s : State) (c : Cause) (w : Word) (ts : List HostTxn) : State :=
  { s with inbox := ts, faulted := true, cause := c, fword := w, pend := [] }

/-- The "fields" column of rule R86: the commands whose word0 uses RD. -/
def usesRd : Op → Bool
  | .straw | .hexenc | .cmp | .isnull | .bits | .trunc256 => false
  | _ => true

/-- … the commands whose word0 uses RA. -/
def usesRa : Op → Bool
  | .zero | .ldu64 | .ldraw | .hexdec | .rdrem => false
  | _ => true

/-- … the commands whose word0 uses RB. -/
def usesRb : Op → Bool
  | .cmp | .and | .or | .xor | .add | .sub | .mul | .div => true
  | _ => false

/-- The opcode values of rule R88. -/
abbrev illegalOpc (n : Nat) : Prop :=
  n = 0x00 ∨ (0x0A ≤ n ∧ n ≤ 0x0F) ∨ (0x16 ≤ n ∧ n ≤ 0x1F) ∨ (0x2A ≤ n ∧ n ≤ 0x2F) ∨ (0x31 ≤ n ∧ n ≤ 0xFF)

/-- The register a command writes (rules R110 to R203: the destination field), none for the commands that write
none. A DIV by zero writes none either. -/
def destReg : Instr → Option Reg
  | .zero rd | .ldu64 rd _ | .ldraw rd _ _ | .hexdec rd _ _ | .rdrem rd => some rd
  | .mov rd _ | .not rd _ | .neg rd _ | .inc rd _ | .dec rd _ => some rd
  | .shl rd _ _ | .shr rd _ _ | .muls rd _ _ => some rd
  | .and rd _ _ | .or rd _ _ | .xor rd _ _ | .add rd _ _ | .sub rd _ _ | .mul rd _ _ | .div rd _ _ => some rd
  | .straw _ _ | .hexenc _ _ | .cmp _ _ | .isnull _ | .bits _ | .trunc256 _ _ => none

/-- The command is a CMP. -/
def isCmp : Instr → Bool
  | .cmp _ _ => true
  | _ => false

/-- The command is an ISNULL. -/
def isIsnull : Instr → Bool
  | .isnull _ => true
  | _ => false

/-- The command is a DIV. -/
def isDiv : Instr → Bool
  | .div _ _ _ => true
  | _ => false

/-- The command is a BITS. -/
def isBits : Instr → Bool
  | .bits _ => true
  | _ => false

/-- The commands of rule R52 that write TBUF. -/
def storesTbuf : Instr → Bool
  | .straw _ _ | .hexenc _ _ | .trunc256 _ _ => true
  | _ => false

/-- The commands of rule R52 that read TBUF. -/
def loadsTbuf : Instr → Bool
  | .ldraw _ _ _ | .hexdec _ _ _ => true
  | _ => false

/-- The command is a DIV whose divisor is zero. -/
def divByZero (i : Instr) (s : State) : Bool :=
  match i with
  | .div _ _ rb => decide (val (s.reg rb) = 0)
  | _ => false

/-- The digit class of rule R200 written out: the digit a byte stands for, none for every other byte value. -/
def digitValue (c : Byte) : Option Nat :=
  if 0x30 ≤ c.toNat ∧ c.toNat ≤ 0x39 then some (c.toNat - 0x30)
  else if 0x61 ≤ c.toNat ∧ c.toNat ≤ 0x66 then some (c.toNat - 0x57)
  else if 0x41 ≤ c.toNat ∧ c.toNat ≤ 0x46 then some (c.toNat - 0x37)
  else none

/-- The whitespace bytes of rule R201 written out. -/
abbrev IsBlank (c : Byte) : Prop :=
  c = 0x20#8 ∨ c = 0x09#8 ∨ c = 0x0A#8 ∨ c = 0x0B#8 ∨ c = 0x0C#8 ∨ c = 0x0D#8

/-- The optional prefix of rule R203: none, "0x" or "0X". -/
abbrev IsPrefix (pre : List Byte) : Prop := pre = [] ∨ pre = [0x30#8, 0x78#8] ∨ pre = [0x30#8, 0x58#8]

/-- How rule R203 cuts a text: whitespace, an optional "0x" or "0X", the run of hex digits, the rest. The whitespace
is all there is before the prefix or the run, the prefix is taken whenever it stands there, and the run ends at the
first byte that is no digit. -/
structure HexText (text ws pre digits tail : List Byte) : Prop where
  cut : text = ws ++ pre ++ digits ++ tail
  blanks : ∀ c ∈ ws, IsBlank c
  all_blanks : ∀ c rest, pre ++ digits ++ tail = c :: rest → ¬IsBlank c
  mark : IsPrefix pre
  mark_taken : pre = [] → ∀ rest, digits ++ tail ≠ 0x30#8 :: 0x78#8 :: rest ∧ digits ++ tail ≠ 0x30#8 :: 0x58#8 :: rest
  run : ∀ c ∈ digits, (digitValue c).isSome = true
  run_ends : ∀ c rest, tail = c :: rest → digitValue c = none

/-- The run read as a base-16 number, most significant digit first (rule R204). -/
def hexNumber (digits : List Byte) : Nat := digits.foldl (fun n c => 16 * n + (digitValue c).getD 0) 0

/-- The commands complete one after the other, from s to t. -/
def Runs : List Instr → State → State → Prop
  | [], s, t => t = s
  | i :: is, s, t => ∃ u, exec i s = .next u ∧ Runs is u t

/-- The pseudo-instruction expands to these commands, and they run from s to t (rule R100). -/
def ExpandsTo (p : Pseudo) (is : List Instr) (s t : State) : Prop := p.expand = some is ∧ Runs is s t

end Sys2Proof.Claims

open Sys2Proof Sys2Proof.Machine Sys2Proof.Claims

/-! ## Encoding -/

/-- Every command, with every operand at every value, decodes from its encoding to itself, whatever words follow
(rules R80, R81, R82, R84, R86). -/
def Obligations.EncodedCommandDecodesToItself : Prop :=
  ∀ (i : Instr) (rest : List Word), decode (encode i ++ rest) = .instr i rest

/-- The words a command is decoded from are its encoding: no word decodes to a command it is not the encoding of
(rules R86, R87). -/
def Obligations.DecodedWordsAreTheEncoding : Prop :=
  ∀ (words rest : List Word) (i : Instr), decode words = .instr i rest → words = encode i ++ rest

/-- The encoding examples of rule R101. -/
def Obligations.EncodingExamplesDecode : Prop :=
  decode [0x21312000#32] = .instr (.add 3 1 2) [] ∧
  decode [0x27312000#32] = .instr (.div 3 1 2) [] ∧
  decode [0x03100000#32, 0x0000000A#32, 0x00000000#32] = .instr (.ldu64 1 10) [] ∧
  decode [0x14220000#32, 0x00000021#32] = .instr (.shl 2 2 33) [] ∧
  decode [0x06000000#32, 0x00000010#32, 0x00000004#32] = .instr (.hexdec 0 0x10 4) [] ∧
  decode [0x08012000#32] = .instr (.cmp 1 2) [] ∧
  decode [0x29050000#32] = .instr (.bits 5) [] ∧
  decode [0x30070000#32, 0x00000040#32] = .instr (.trunc256 7 0x40) []

/-- The assembler (rules R99, R100) reads the lines of rule R101 as the commands whose words rule R101 gives. -/
def Obligations.AssemblerReadsExamples : Prop :=
  (assembleLine "ADD V3, V1, V2".toList).map (·.flatMap encode) = some [0x21312000#32] ∧
  (assembleLine "DIV V3, V1, V2".toList).map (·.flatMap encode) = some [0x27312000#32] ∧
  (assembleLine "LDU64 V1, #10".toList).map (·.flatMap encode) = some [0x03100000#32, 0xA#32, 0#32] ∧
  (assembleLine "SHL V2, V2, #33".toList).map (·.flatMap encode) = some [0x14220000#32, 0x21#32] ∧
  (assembleLine "HEXDEC V0, [0x10], #4".toList).map (·.flatMap encode) =
    some [0x06000000#32, 0x10#32, 0x4#32] ∧
  (assembleLine "CMP V1, V2".toList).map (·.flatMap encode) = some [0x08012000#32] ∧
  (assembleLine "BITS V5".toList).map (·.flatMap encode) = some [0x29050000#32] ∧
  (assembleLine "TRUNC256 V7, [0x40]".toList).map (·.flatMap encode) = some [0x30070000#32, 0x40#32]

/-! ## The command port -/

/-- Rule R88: there are 230 illegal opcode values, and a word0 with one of them raises ILLEGAL_OPCODE when it
arrives. -/
def Obligations.IllegalOpcodeFaultsOnArrival : Prop :=
  ((List.range 256).filter fun n => decide (illegalOpc n)).length = 230 ∧
  ∀ (s : State) (w : Word) (ts : List HostTxn), Ready s → NextWord s w ts →
    illegalOpc (w.toNat / 2 ^ 24) → step s = .next (faultedOn s .illegalOpcode w ts)

/-- Rules R89 and R230: the classes enabled at each width, and that a listed opcode whose class is not enabled at the
engine's width raises CLASS_DISABLED when its word0 arrives, whatever its other bits (rule R246). -/
def Obligations.DisabledClassFaultsOnArrival : Prop :=
  (∀ (c : Config) (i : Instr), i.wellFormed c ↔
    (0x01 ≤ i.op.code ∧ i.op.code ≤ 0x09) ∨
    (0x10 ≤ i.op.code ∧ i.op.code ≤ 0x15 ∧ (c.width = .w512 ∨ c.narrowBitwise = true)) ∨
    (0x20 ≤ i.op.code ∧ i.op.code ≤ 0x29 ∧ c.width = .w512) ∨ (i.op.code = 0x30 ∧ c.width = .w512)) ∧
  ∀ (s : State) (w : Word) (ts : List HostTxn), Ready s → NextWord s w ts → s.cfg.width ≠ .w512 →
    ((0x10 ≤ w.toNat / 2 ^ 24 ∧ w.toNat / 2 ^ 24 ≤ 0x15 ∧ s.cfg.narrowBitwise = false) ∨
      (0x20 ≤ w.toNat / 2 ^ 24 ∧ w.toNat / 2 ^ 24 ≤ 0x29) ∨ w.toNat / 2 ^ 24 = 0x30) →
    step s = .next (faultedOn s .classDisabled w ts)

/-- Rule R87: a word0 with a listed, enabled opcode and one of bits [11:0], or a bit of a register field its command
does not use, set raises RSVD_FIELD when it arrives. -/
def Obligations.ReservedFieldFaultsOnArrival : Prop :=
  ∀ (s : State) (w : Word) (ts : List HostTxn) (op : Op), Ready s → NextWord s w ts →
    w.toNat / 2 ^ 24 = op.code → s.cfg.classEnabled op.cls = true →
    (w.toNat % 2 ^ 12 ≠ 0 ∨ (usesRd op = false ∧ w.toNat / 2 ^ 20 % 16 ≠ 0) ∨
      (usesRa op = false ∧ w.toNat / 2 ^ 16 % 16 ≠ 0) ∨ (usesRb op = false ∧ w.toNat / 2 ^ 12 % 16 ≠ 0)) →
    step s = .next (faultedOn s .rsvdField w ts)

/-- A step runs the decoded command: when the words in PEND and the word written to CMD are the encoding of a
command well formed for the engine, the step is `exec` of that command, with the transaction taken and PEND empty
(rules R91, R92, R94). -/
def Obligations.StepRunsTheDecodedCommand : Prop :=
  ∀ (s : State) (w : Word) (ts : List HostTxn) (i : Instr), s.faulted = false → i.wellFormed s.cfg →
    s.pend ++ [w] = encode i → NextWord s w ts →
    step s = exec i { s with inbox := ts, pend := [] }

/-- Rule R92: while PEND is non-empty a word is appended to it without inspection; when PEND then holds the words
its word0 asks for, the command they decode to executes with PEND empty. -/
def Obligations.ExtensionWordIsAppended : Prop :=
  ∀ (s : State) (w w0 : Word) (ws : List Word) (ts : List HostTxn) (op : Op), s.Inv → s.faulted = false →
    s.pend = w0 :: ws → w0.toNat / 2 ^ 24 = op.code → NextWord s w ts →
    (ws.length + 2 = op.words → ∃ i, decode (w0 :: ws ++ [w]) = .instr i [] ∧
      step s = exec i { s with inbox := ts, pend := [] }) ∧
    (ws.length + 2 < op.words → step s = .next { s with inbox := ts, pend := w0 :: ws ++ [w] })

/-- A whole command (rules R80, R91, R92, R95): from a ready engine, as many steps as a command well formed for it
has words, each taking the CMD write of one, are `exec` of that command. -/
def Obligations.WholeCommandRunsAsExec : Prop :=
  ∀ (s : State) (i : Instr) (ts : List HostTxn), Ready s → i.wellFormed s.cfg →
    s.inbox = (encode i).map (fun w => .write (s.cfg.hostBase + 0x008) 4 w) ++ ts →
    Host.Core.run Sys2Proof.core (encode i).length s = exec i { s with inbox := ts }

/-- Rule R93: a CMD write while FAULTED = 1 has no effect at all. -/
def Obligations.FaultedEngineDropsWords : Prop :=
  ∀ (s : State) (w : Word) (ts : List HostTxn), s.faulted = true → NextWord s w ts →
    step s = .next { s with inbox := ts }

/-! ## Faults -/

/-- A command either completes or faults, and nothing else (rule R240); one that faults has no effect but the
fault entry of rule R242, its cause being RAW_LENGTH or BUFFER_RANGE (rules R94, R241, R243). -/
def Obligations.CommandCompletesOrFaults : Prop :=
  ∀ (i : Instr) (s : State), Raises i s .rawLength ∨ Raises i s .bufferRange ∨
    ∃ t, exec i s = .next t ∧ t.faulted = s.faulted ∧ t.cause = s.cause ∧ t.fword = s.fword ∧ t.pend = s.pend ∧
      t.cfg = s.cfg ∧ t.epoch = s.epoch ∧ t.inbox = s.inbox ∧ t.outbox = s.outbox

/-- Rule R97: every command that completes writes DZ, 1 if it is a DIV whose divisor is zero and 0 otherwise; a
faulting command leaves DZ unchanged. -/
def Obligations.EveryCommandWritesDz : Prop :=
  ∀ (i : Instr) (s : State), s.faulted = false → ∃ t, exec i s = .next t ∧
    (t.faulted = false → t.dz = divByZero i s) ∧ (t.faulted = true → t.dz = s.dz)

/-- FAULTED is left only by a write of CTRL with SRST = 1 (rules R244, R245): any other step of a faulted engine
keeps the first fault's CAUSE and FWORD, every register and every flag. -/
def Obligations.FaultIsLeftOnlyByReset : Prop :=
  ∀ s t : State, s.faulted = true → step s = .next t →
    (t.faulted = true ∧ t.cause = s.cause ∧ t.fword = s.fword ∧ t.pend = s.pend ∧ t.v = s.v ∧ t.rem = s.rem ∧
      t.sr = s.sr ∧ t.eq = s.eq ∧ t.lt = s.lt ∧ t.gt = s.gt ∧ t.z = s.z ∧ t.dz = s.dz) ∨
    ∃ data ts, s.inbox = .write (s.cfg.hostBase + 0x01C) 4 data :: ts ∧ data.getLsbD 0 = true ∧
      t.faulted = false ∧ t.cause = .none ∧ t.fword = 0#32

/-! ## Whole-machine rules about the commands -/

/-- Only CMP writes EQ, LT and GT, only ISNULL writes Z, only DIV writes REM, only BITS writes SR, and only STRAW,
HEXENC and TRUNC256 write TBUF (rules R24, R25, R26, R52). -/
def Obligations.SpecialStateHasOneWriter : Prop :=
  ∀ (i : Instr) (s : State), ∃ t, exec i s = .next t ∧
    (isCmp i = false → t.eq = s.eq ∧ t.lt = s.lt ∧ t.gt = s.gt) ∧ (isIsnull i = false → t.z = s.z) ∧
    (isDiv i = false → t.rem = s.rem) ∧ (isBits i = false → t.sr = s.sr) ∧
    (storesTbuf i = false → ∀ a, t.tbufByte a = s.tbufByte a)

/-- A command changes no value register but its destination (rules R22, R98). -/
def Obligations.OnlyDestinationRegisterChanges : Prop :=
  ∀ (i : Instr) (s : State), ∃ t, exec i s = .next t ∧ ∀ r : Reg, destReg i ≠ some r → t.reg r = s.reg r

/-- "No other command reads or writes TBUF" (rule R52): but for LDRAW, HEXDEC, STRAW, HEXENC and TRUNC256, what TBUF
holds, drawn or written, changes nothing else about what a command does. -/
def Obligations.OtherCommandsDoNotSeeTbuf : Prop :=
  ∀ (i : Instr) (s t : State) (cells : List Host.Cell) (epoch : Nat), loadsTbuf i = false → storesTbuf i = false →
    exec i s = .next t →
    exec i { s with tbuf := cells, epoch := epoch } = .next { t with tbuf := cells, epoch := epoch }

/-! ## Values -/

/-- Rule R10: blob(x) is the unique value with val = x mod 2^N. -/
def Obligations.BlobIsTheValueModulo : Prop :=
  (∀ n x : Nat, val (blob n x) = x % 2 ^ (32 * n)) ∧ ∀ v : Blob, blob v.length (val v) = v

/-- Rules R54 and R55: byte j of raw(v) is val(v)[8j+7:8j], which is byte j mod 4 of limb j div 4; fromRaw of 4n bytes is the value Σ b[j]·2^(8j); each undoes
the other. -/
def Obligations.RawBytesSpellTheValue : Prop :=
  (∀ (v : Blob) (j : Nat), j < 4 * v.length → (raw v)[j]? = some (BitVec.ofNat 8 (val v / 2 ^ (8 * j))) ∧
    (raw v)[j]? = v[j / 4]?.map fun l => BitVec.ofNat 8 (l.toNat / 2 ^ (8 * (j % 4)))) ∧
  (∀ b : List Byte, b.length % 4 = 0 → val (fromRaw b) = sumBytes b.length (fun j => b.getD j 0#8)) ∧
  (∀ v : Blob, fromRaw (raw v) = v) ∧ ∀ b : List Byte, b.length % 4 = 0 → raw (fromRaw b) = b

/-! ## Construction, serialization, comparison -/

/-- Rules R110, R111, R112: ZERO writes 0, MOV copies, LDU64 writes the zero-extended 64-bit integer. -/
def Obligations.ConstructorsWriteTheirValue : Prop :=
  ∀ (s : State) (rd ra : Reg) (imm64 : BitVec 64), s.Inv →
    encode (.zero rd) = [0x01000000#32 ||| atRd rd] ∧
    encode (.mov rd ra) = [0x02000000#32 ||| atRd rd ||| atRa ra] ∧
    encode (.ldu64 rd imm64) = [0x03000000#32 ||| atRd rd, imm64.extractLsb' 0 32, imm64.extractLsb' 32 32] ∧
    Writes (.zero rd) s rd 0 ∧ Writes (.mov rd ra) s rd (val (s.reg ra)) ∧ Writes (.ldu64 rd imm64) s rd imm64.toNat

/-- Rule R113: LDRAW faults RAW_LENGTH when len ≠ NB, else BUFFER_RANGE when addr + NB > TBUF_BYTES, else reads TBUF[addr
+ j] as byte j of the value. -/
def Obligations.LdrawReadsRawBytes : Prop :=
  ∀ (s : State) (rd : Reg) (addr len : Word), s.Inv →
    encode (.ldraw rd addr len) = [0x04000000#32 ||| atRd rd, addr, len] ∧
    (len.toNat ≠ bitsN s / 8 → Raises (.ldraw rd addr len) s .rawLength) ∧
    (len.toNat = bitsN s / 8 → s.cfg.tbufBytes < addr.toNat + bitsN s / 8 →
      Raises (.ldraw rd addr len) s .bufferRange) ∧
    (len.toNat = bitsN s / 8 → addr.toNat + bitsN s / 8 ≤ s.cfg.tbufBytes →
      Writes (.ldraw rd addr len) s rd (sumBytes (bitsN s / 8) fun j => s.tbufByte (addr.toNat + j)))

/-- Rule R114: STRAW writes byte j of the value at TBUF[addr + j] for j < NB and no other byte, or faults BUFFER_RANGE
and writes none. -/
def Obligations.StrawWritesRawBytes : Prop :=
  ∀ (s : State) (ra : Reg) (addr : Word), s.Inv →
    encode (.straw ra addr) = [0x05000000#32 ||| atRa ra, addr] ∧
    (s.cfg.tbufBytes < addrOf addr + bitsN s / 8 → Raises (.straw ra addr) s .bufferRange) ∧
    (addrOf addr + bitsN s / 8 ≤ s.cfg.tbufBytes →
      Stores (.straw ra addr) s (addrOf addr) (bitsN s / 8) fun j => BitVec.ofNat 8 (val (s.reg ra) / 2 ^ (8 * j)))

/-- Rule R115: ISNULL writes Z, 1 iff the value is 0, and no other flag. -/
def Obligations.IsnullTestsForZero : Prop :=
  ∀ (s : State) (ra : Reg), encode (.isnull ra) = [0x09000000#32 ||| atRa ra] ∧
    exec (.isnull ra) s = .next { s with z := decide (val (s.reg ra) = 0), dz := false }

/-- Rule R116: CMP, which compares raw bytes from the highest, writes EQ, LT, GT as the numeric comparison of the
values, and no other flag. -/
def Obligations.CmpOrdersNumerically : Prop :=
  ∀ (s : State) (ra rb : Reg), s.Inv →
    encode (.cmp ra rb) = [0x08000000#32 ||| atRa ra ||| atRb rb] ∧
    exec (.cmp ra rb) s = .next { s with
      eq := decide (val (s.reg ra) = val (s.reg rb))
      lt := decide (val (s.reg ra) < val (s.reg rb))
      gt := decide (val (s.reg rb) < val (s.reg ra))
      dz := false }

/-! ## Bitwise and shifts -/

/-- Rules R140 to R143: NOT writes MAX − val(a); AND, OR, XOR write the bitwise combination of the values. -/
def Obligations.BitwiseCommandsCombineBits : Prop :=
  ∀ (s : State) (rd ra rb : Reg), s.Inv →
    encode (.not rd ra) = [0x10000000#32 ||| atRd rd ||| atRa ra] ∧
    encode (.and rd ra rb) = [0x11000000#32 ||| atRd rd ||| atRa ra ||| atRb rb] ∧
    encode (.or rd ra rb) = [0x12000000#32 ||| atRd rd ||| atRa ra ||| atRb rb] ∧
    encode (.xor rd ra rb) = [0x13000000#32 ||| atRd rd ||| atRa ra ||| atRb rb] ∧
    Writes (.not rd ra) s rd (2 ^ bitsN s - 1 - val (s.reg ra)) ∧
    Writes (.and rd ra rb) s rd (val (s.reg ra) &&& val (s.reg rb)) ∧
    Writes (.or rd ra rb) s rd (val (s.reg ra) ||| val (s.reg rb)) ∧
    Writes (.xor rd ra rb) s rd (val (s.reg ra) ^^^ val (s.reg rb))

/-- Rules R144 and R145, for every 32-bit amount s: SHL writes val(a)·2^s mod 2^N, SHR writes val(a) div 2^s. -/
def Obligations.ShiftsMultiplyAndDivide : Prop :=
  ∀ (s : State) (rd ra : Reg) (imm32 : Word), s.Inv →
    encode (.shl rd ra imm32) = [0x14000000#32 ||| atRd rd ||| atRa ra, imm32] ∧
    encode (.shr rd ra imm32) = [0x15000000#32 ||| atRd rd ||| atRa ra, imm32] ∧
    Writes (.shl rd ra imm32) s rd (val (s.reg ra) * 2 ^ imm32.toNat % 2 ^ bitsN s) ∧
    Writes (.shr rd ra imm32) s rd (val (s.reg ra) / 2 ^ imm32.toNat)

/-- Rule R146: the three shift laws of the SHL and SHR operations on values. -/
def Obligations.ShiftLaws : Prop :=
  ∀ (b : Blob) (s t : Nat), s < 32 * b.length →
    val (shrBlob (shlBlob b s) s) = val b % 2 ^ (32 * b.length - s) ∧
    val (shlBlob (shrBlob b s) s) = val b - val b % 2 ^ s ∧
    (s + t < 2 ^ 32 → shlBlob (shlBlob b s) t = shlBlob b (s + t) ∧ shrBlob (shrBlob b s) t = shrBlob b (s + t))

/-! ## Arithmetic -/

/-- Rules R160 to R164: NEG, ADD, SUB, INC and DEC write (−a), (a + b), (a − b), (a + 1) and (a − 1) mod 2^N, whichever
registers coincide. -/
def Obligations.AdditiveCommandsAreModular : Prop :=
  ∀ (s : State) (rd ra rb : Reg), s.Inv →
    encode (.neg rd ra) = [0x20000000#32 ||| atRd rd ||| atRa ra] ∧
    encode (.add rd ra rb) = [0x21000000#32 ||| atRd rd ||| atRa ra ||| atRb rb] ∧
    encode (.sub rd ra rb) = [0x22000000#32 ||| atRd rd ||| atRa ra ||| atRb rb] ∧
    encode (.inc rd ra) = [0x23000000#32 ||| atRd rd ||| atRa ra] ∧
    encode (.dec rd ra) = [0x24000000#32 ||| atRd rd ||| atRa ra] ∧
    Writes (.neg rd ra) s rd ((2 ^ bitsN s - val (s.reg ra)) % 2 ^ bitsN s) ∧
    Writes (.add rd ra rb) s rd ((val (s.reg ra) + val (s.reg rb)) % 2 ^ bitsN s) ∧
    Writes (.sub rd ra rb) s rd ((2 ^ bitsN s + val (s.reg ra) - val (s.reg rb)) % 2 ^ bitsN s) ∧
    Writes (.inc rd ra) s rd ((val (s.reg ra) + 1) % 2 ^ bitsN s) ∧
    Writes (.dec rd ra) s rd ((2 ^ bitsN s + val (s.reg ra) - 1) % 2 ^ bitsN s)

/-- Rules R165 and R166: MULS writes a·m mod 2^N, and MUL's limb convolution writes a·b mod 2^N. -/
def Obligations.MultiplicationsAreModular : Prop :=
  ∀ (s : State) (rd ra rb : Reg) (imm32 : Word), s.Inv →
    encode (.muls rd ra imm32) = [0x25000000#32 ||| atRd rd ||| atRa ra, imm32] ∧
    encode (.mul rd ra rb) = [0x26000000#32 ||| atRd rd ||| atRa ra ||| atRb rb] ∧
    Writes (.muls rd ra imm32) s rd (val (s.reg ra) * imm32.toNat % 2 ^ bitsN s) ∧
    Writes (.mul rd ra rb) s rd (val (s.reg ra) * val (s.reg rb) % 2 ^ bitsN s)

/-- Rule R167: with a nonzero divisor DIV's shift-and-subtract loop writes the floor quotient to V[rd] and the remainder
to REM; with a zero divisor DIV writes DZ = 1 and nothing else. -/
def Obligations.DivComputesFloorDivision : Prop :=
  ∀ (s : State) (rd ra rb : Reg), s.Inv →
    encode (.div rd ra rb) = [0x27000000#32 ||| atRd rd ||| atRa ra ||| atRb rb] ∧
    (val (s.reg rb) ≠ 0 → exec (.div rd ra rb) s = .next { s with
      v := s.v.set rd (blob s.cfg.limbs (val (s.reg ra) / val (s.reg rb)))
      rem := blob s.cfg.limbs (val (s.reg ra) % val (s.reg rb))
      dz := false }) ∧
    (val (s.reg rb) = 0 → exec (.div rd ra rb) s = .next { s with dz := true })

/-- Rule R168: RDREM copies REM, which is 0 after reset and which no command but DIV changes; after a DIV with a nonzero
divisor that is its remainder, after a DIV by zero the REM before it. -/
def Obligations.RdremReadsTheLastRemainder : Prop :=
  (∀ c : Config, val (State.resetOf c).rem = 0) ∧
  (∀ (i : Instr) (s t : State), isDiv i = false → exec i s = .next t → t.rem = s.rem) ∧
  ∀ (s : State) (rd rq ra rb : Reg), s.Inv →
    encode (.rdrem rd) = [0x28000000#32 ||| atRd rd] ∧
    Writes (.rdrem rd) s rd (val s.rem) ∧
    ∃ t u, exec (.div rq ra rb) s = .next t ∧ exec (.rdrem rd) t = .next u ∧
      val (u.reg rd) = if val (s.reg rb) = 0 then val s.rem else val (s.reg ra) % val (s.reg rb)

/-- Rule R169: BITS writes SR, 0 for the zero value and else 1 + the index of the highest set bit. -/
def Obligations.BitsIsOnePastTheHighestBit : Prop :=
  ∀ (s : State) (ra : Reg), s.Inv → encode (.bits ra) = [0x29000000#32 ||| atRa ra] ∧ ∃ n : Nat, n ≤ bitsN s ∧
    exec (.bits ra) s = .next { s with sr := BitVec.ofNat 32 n, dz := false } ∧
    (val (s.reg ra) = 0 → n = 0) ∧
    (val (s.reg ra) ≠ 0 → 1 ≤ n ∧ (val (s.reg ra)).testBit (n - 1) = true ∧
      ∀ k, n ≤ k → (val (s.reg ra)).testBit k = false)

/-- "⌊a/b⌋·b + REM = a exactly" (rule R170), by the commands themselves: after a DIV with a nonzero divisor, not over that
divisor, MUL of quotient and divisor then ADD of the remainder give the dividend back. -/
def Obligations.QuotientTimesDivisorPlusRemainder : Prop :=
  ∀ (s : State) (rq rp rr ra rb : Reg), s.Inv → val (s.reg rb) ≠ 0 → rq ≠ rb → rp ≠ rr →
    ∃ t1 t2 t3 t4, exec (.div rq ra rb) s = .next t1 ∧ exec (.mul rp rq rb) t1 = .next t2 ∧
      exec (.rdrem rr) t2 = .next t3 ∧ exec (.add rp rp rr) t3 = .next t4 ∧ t4.reg rp = s.reg ra

/-! ## Hex codec and truncation -/

/-- Rule R202: HEXENC writes 2·NB characters, the lowercase base-16 digits of the value, most significant first, and no
other byte, or faults BUFFER_RANGE and writes none. -/
def Obligations.HexencWritesTheDigits : Prop :=
  ∀ (s : State) (ra : Reg) (addr : Word), s.Inv →
    encode (.hexenc ra addr) = [0x07000000#32 ||| atRa ra, addr] ∧
    (s.cfg.tbufBytes < addrOf addr + bitsN s / 4 → Raises (.hexenc ra addr) s .bufferRange) ∧
    (addrOf addr + bitsN s / 4 ≤ s.cfg.tbufBytes →
      Stores (.hexenc ra addr) s (addrOf addr) (bitsN s / 4) fun k =>
        let d := val (s.reg ra) / 16 ^ (bitsN s / 4 - 1 - k) % 16
        if d ≤ 9 then BitVec.ofNat 8 (0x30 + d) else BitVec.ofNat 8 (0x57 + d))

/-- Rules R203 and R204, with the digits of rule R200: HEXDEC cuts every text as rule R203 says and writes the digit run read as a base-16 number, mod
2^N; or it faults BUFFER_RANGE. -/
def Obligations.HexdecReadsTheDigitRun : Prop :=
  ∀ (s : State) (rd : Reg) (addr len : Word), s.Inv →
    encode (.hexdec rd addr len) = [0x06000000#32 ||| atRd rd, addr, len] ∧
    (s.cfg.tbufBytes < addr.toNat + len.toNat → Raises (.hexdec rd addr len) s .bufferRange) ∧
    (addr.toNat + len.toNat ≤ s.cfg.tbufBytes → ∃ ws pre digits tail,
      HexText ((List.range len.toNat).map fun j => s.tbufByte (addr.toNat + j)) ws pre digits tail ∧
      Writes (.hexdec rd addr len) s rd (hexNumber digits % 2 ^ bitsN s))

/-- Rule R205, at every width: HEXENC, then HEXDEC of the 2·NB characters it wrote, gives the value back; and so does
HEXDEC of any region that holds whitespace, a prefix "0x" or "0X" or none, those characters, and after them nothing or
a byte that is no digit, in any state of that engine. The same of the text as a list. -/
def Obligations.HexRoundTrip : Prop :=
  (∀ (v : Blob) (ws pre tail : List Byte), 0 < v.length → (∀ c ∈ ws, IsBlank c) → IsPrefix pre →
    (∀ c rest, tail = c :: rest → digitValue c = none) →
    hexParse (4 * v.length) (ws ++ pre ++ hexText v ++ tail) = v) ∧
  (∀ (s : State) (ra rd : Reg) (addr len : Word), s.Inv → len.toNat = bitsN s / 4 →
    addr.toNat + bitsN s / 4 ≤ s.cfg.tbufBytes →
    ∃ t u, exec (.hexenc ra addr) s = .next t ∧ exec (.hexdec rd addr len) t = .next u ∧ u.reg rd = s.reg ra) ∧
  ∀ (s : State) (ra : Reg) (addr : Word), s.Inv → addr.toNat + bitsN s / 4 ≤ s.cfg.tbufBytes →
    ∃ t, exec (.hexenc ra addr) s = .next t ∧
      ∀ (u : State) (rd : Reg) (base len : Word) (ws pre : List Byte), u.Inv → u.cfg = s.cfg →
        (∀ j, j < bitsN s / 4 → u.tbufByte (addr.toNat + j) = t.tbufByte (addr.toNat + j)) →
        (∀ c ∈ ws, IsBlank c) → IsPrefix pre → base.toNat + (ws ++ pre).length = addr.toNat →
        (List.range (ws ++ pre).length).map (fun j => u.tbufByte (base.toNat + j)) = ws ++ pre →
        addr.toNat + bitsN s / 4 ≤ base.toNat + len.toNat → base.toNat + len.toNat ≤ u.cfg.tbufBytes →
        (base.toNat + len.toNat = addr.toNat + bitsN s / 4 ∨
          digitValue (u.tbufByte (addr.toNat + bitsN s / 4)) = none) →
        Writes (.hexdec rd base len) u rd (val (s.reg ra))

/-- STRAW, then LDRAW of the NB bytes it wrote, gives the value back, at every width (rules R55, R113, R114). -/
def Obligations.RawRoundTrip : Prop :=
  ∀ (s : State) (ra rd : Reg) (addr len : Word), s.Inv → len.toNat = bitsN s / 8 →
    addr.toNat + bitsN s / 8 ≤ s.cfg.tbufBytes →
    ∃ t u, exec (.straw ra addr) s = .next t ∧ exec (.ldraw rd addr len) t = .next u ∧ u.reg rd = s.reg ra

/-- Rule R232: on an FWB-512 TRUNC256 writes the 32 low raw bytes of the value and no other byte, or faults BUFFER_RANGE
and writes none; on the other widths its word0 faults CLASS_DISABLED on arrival; and an FWB-256 that reads those bytes
with LDRAW holds the value mod 2^256. -/
def Obligations.Trunc256WritesTheLowHalf : Prop :=
  (∀ (s : State) (ra : Reg) (ts : List HostTxn), Ready s → NextWord s (0x30000000#32 ||| atRa ra) ts →
    s.cfg.width ≠ .w512 → step s = .next (faultedOn s .classDisabled (0x30000000#32 ||| atRa ra) ts)) ∧
  (∀ (s t : State) (ra rd : Reg) (addr' : Word), s.Inv → t.Inv → s.cfg.width = .w512 → t.cfg.width = .w256 →
    addr'.toNat + 32 ≤ t.cfg.tbufBytes →
    (∀ j, j < 32 → t.tbufByte (addr'.toNat + j) = BitVec.ofNat 8 (val (s.reg ra) / 2 ^ (8 * j))) →
    Writes (.ldraw rd addr' 32#32) t rd (val (s.reg ra) % 2 ^ 256)) ∧
  ∀ (s : State) (ra : Reg) (addr : Word), s.Inv → s.cfg.width = .w512 →
    encode (.trunc256 ra addr) = [0x30000000#32 ||| atRa ra, addr] ∧
    (s.cfg.tbufBytes < addrOf addr + 32 → Raises (.trunc256 ra addr) s .bufferRange) ∧
    (addrOf addr + 32 ≤ s.cfg.tbufBytes →
      Stores (.trunc256 ra addr) s (addrOf addr) 32 fun j => BitVec.ofNat 8 (val (s.reg ra) / 2 ^ (8 * j)))

/-! ## Host transactions -/

/-- The engine answers the oldest transaction first and leaves the others, keeps its configuration, and only ever adds
to what it has answered (rules R3, R63). -/
def Obligations.StepAnswersInArrivalOrder : Prop :=
  ∀ s t : State, step s = .next t → t.inbox = s.inbox.tail ∧ t.cfg = s.cfg ∧ ∃ added, t.outbox = s.outbox ++ added

/-- Rule R31: the ID register of each instance. -/
def Obligations.IdRegisterNamesTheInstance : Prop :=
  ∀ (s : State) (ts : List HostTxn), s.inbox = .read (s.cfg.hostBase + 0x000) 4 :: ts →
    step s = .next { s with
      inbox := ts
      outbox := s.outbox ++ [match s.cfg.width, s.cfg.narrowBitwise with
        | .w160, false => 0x100000A0#32
        | .w256, false => 0x10000100#32
        | .w512, _ => 0x10070200#32
        | .w160, true => 0x100100A0#32
        | .w256, true => 0x10010100#32] }

/-- Rule R33: the bits of STATUS, and its reset value 0. -/
def Obligations.StatusShowsFlagsFaultAndPend : Prop :=
  (∀ c : Config, statusWord (State.resetOf c) = 0#32) ∧ ∀ (s : State) (ts : List HostTxn), s.inbox = .read (s.cfg.hostBase + 0x00C) 4 :: ts →
    ∃ w : Word, step s = .next { s with inbox := ts, outbox := s.outbox ++ [w] } ∧
      w.getLsbD 0 = s.eq ∧ w.getLsbD 1 = s.lt ∧ w.getLsbD 2 = s.gt ∧ w.getLsbD 3 = s.z ∧ w.getLsbD 4 = s.dz ∧
      w.getLsbD 8 = s.faulted ∧ w.getLsbD 9 = !s.pend.isEmpty ∧
      ∀ k, (5 ≤ k ∧ k ≤ 7) ∨ 10 ≤ k → w.getLsbD k = false

/-- Rules R32, R35, R36: what TBUFSZ, CAUSE, FWORD and SR read as, SR being at most N, and that CAUSE, FWORD and SR are 0
after reset; the write-only CMD and CTRL read as 0 (rule R30). -/
def Obligations.HostRegistersReadTheirValues : Prop :=
  (∀ c : Config, (State.resetOf c).cause = .none ∧ (State.resetOf c).fword = 0#32 ∧ (State.resetOf c).sr = 0#32) ∧
  ∀ (s : State) (ts : List HostTxn) (offset : Nat) (w : Word), s.Inv →
    s.inbox = .read (s.cfg.hostBase + offset) 4 :: ts →
    ((offset = 0x004 ∧ w = BitVec.ofNat 32 s.cfg.tbufBytes) ∨ (offset = 0x008 ∧ w = 0#32) ∨
      (offset = 0x010 ∧ w = match s.cause with
        | .none => 0#32
        | .illegalOpcode => 1#32
        | .classDisabled => 2#32
        | .rsvdField => 3#32
        | .rawLength => 4#32
        | .bufferRange => 5#32) ∨
      (offset = 0x014 ∧ w = s.fword) ∨ (offset = 0x018 ∧ w = s.sr) ∨ (offset = 0x01C ∧ w = 0#32)) →
    step s = .next { s with inbox := ts, outbox := s.outbox ++ [w] } ∧ (offset = 0x018 → w.toNat ≤ bitsN s)

/-- Rule R60: no host read has a side effect, the engine's state after it is the state before it; and a host write that is
none to CMD and none to CTRL with SRST = 1 changes no state but TBUF bytes. -/
def Obligations.HostReadsHaveNoSideEffect : Prop :=
  (∀ (s t : State) (addr size : Nat) (ts : List HostTxn), s.inbox = .read addr size :: ts → step s = .next t →
    { t with inbox := s.inbox, outbox := s.outbox } = s) ∧
  ∀ (s t : State) (addr size : Nat) (data : Word) (ts : List HostTxn), s.inbox = .write addr size data :: ts →
    addr ≠ s.cfg.hostBase + 0x008 → ¬(addr = s.cfg.hostBase + 0x01C ∧ data.getLsbD 0 = true) → step s = .next t →
    { t with inbox := s.inbox, tbuf := s.tbuf } = s

/-- Rules R30 and R37: a write to a read-only register, and a write to CTRL with SRST = 0, has no effect. -/
def Obligations.ReadOnlyWritesAreIgnored : Prop :=
  ∀ (s : State) (offset : Nat) (data : Word) (ts : List HostTxn),
    s.inbox = .write (s.cfg.hostBase + offset) 4 data :: ts →
    (offset = 0x000 ∨ offset = 0x004 ∨ offset = 0x00C ∨ offset = 0x010 ∨ offset = 0x014 ∨ offset = 0x018 ∨
      (offset = 0x01C ∧ data.getLsbD 0 = false)) →
    step s = .next { s with inbox := ts }

/-- Rules R38 and R62: the accesses the engine refuses, read or written: reserved offsets, registers at another width or
alignment, and TBUF at another width or past its end. (That alignment is measured on the offset in the window is the
model's reading, log entry 8.) -/
def Obligations.ForbiddenAccessesAreRefused : Prop :=
  ∀ (s : State) (offset size : Nat) (data : Word) (ts : List HostTxn),
    (s.inbox = .read (s.cfg.hostBase + offset) size :: ts ∨
      s.inbox = .write (s.cfg.hostBase + offset) size data :: ts) →
    (offset < 0x020 → (offset % 4 ≠ 0 ∨ size ≠ 4) → step s = .refused .hostRegisterAccess) ∧
    (0x020 ≤ offset → offset < 0x1000 → step s = .refused .hostReservedOffset) ∧
    (0x1000 ≤ offset →
      ((size ≠ 1 ∧ size ≠ 2 ∧ size ≠ 4) ∨ 0x1000 + s.cfg.tbufBytes < offset + size) →
      step s = .refused .hostTbufAccess)

/-- Rule R62: a host write of 1, 2 or 4 bytes in the TBUF window stores them little-endian and changes nothing else, and
a read of the same place then answers them. -/
def Obligations.HostTbufWriteThenRead : Prop :=
  ∀ (s : State) (i size : Nat) (data : Word) (ts : List HostTxn), s.Inv → (size = 1 ∨ size = 2 ∨ size = 4) →
    i + size ≤ s.cfg.tbufBytes →
    s.inbox = .write (s.cfg.hostBase + 0x1000 + i) size data :: .read (s.cfg.hostBase + 0x1000 + i) size :: ts →
    ∃ t, step s = .next t ∧ { t with tbuf := s.tbuf } = { s with inbox := s.inbox.tail } ∧
      (∀ a, t.tbufByte a = if i ≤ a ∧ a < i + size then BitVec.ofNat 8 (data.toNat / 2 ^ (8 * (a - i)))
        else s.tbufByte a) ∧
      step t = .next { t with
        inbox := ts
        outbox := s.outbox ++ [BitVec.ofNat 32 (data.toNat % 2 ^ (8 * size))] }

/-! ## Reset and the invariant -/

/-- Rule R281: a CTRL write with SRST = 1 gives every piece of the engine's state its reset value, and every TBUF byte a
new draw. (That hosts' transactions and answers, and the count of resets, are kept beside it is the model's choice,
log entries 5 and 13.) -/
def Obligations.SoftResetGivesResetValues : Prop :=
  ∀ (s : State) (data : Word) (ts : List HostTxn), s.inbox = .write (s.cfg.hostBase + 0x01C) 4 data :: ts →
    data.getLsbD 0 = true →
    ∃ t, step s = .next t ∧ (∀ r : Reg, t.reg r = List.replicate s.cfg.limbs 0#32) ∧
      t.rem = List.replicate s.cfg.limbs 0#32 ∧ t.sr = 0#32 ∧ t.eq = false ∧ t.lt = false ∧ t.gt = false ∧
      t.z = false ∧ t.dz = false ∧ t.faulted = false ∧ t.cause = .none ∧ t.fword = 0#32 ∧ t.pend = [] ∧
      t.cfg = s.cfg ∧ t.inbox = ts ∧ t.outbox = s.outbox ∧
      ∀ a, t.tbufByte a = Config.tbufDraw (s.epoch + 1) a

/-- The engine after power-on meets the invariant, whatever its configuration. -/
def Obligations.ResetMeetsTheInvariant : Prop :=
  State.reset.Inv ∧ ∀ c : Config, c.wf → (State.resetOf c).Inv

/-- Every step keeps the invariant: the limb counts, SR ≤ N, at most one of EQ, LT, GT, CAUSE and FWORD 0 while not
faulted, PEND empty while faulted and else a proper beginning of an accepted command, TBUF in canonical form and in
range. -/
def Obligations.StepKeepsTheInvariant : Prop :=
  ∀ s t : State, s.Inv → step s = .next t → t.Inv

/-- A state that meets the invariant never stops with a fault: the engine's own faults are next states (rule R242), and
PEND is never corrupt. -/
def Obligations.StepNeverStopsWithAFault : Prop :=
  ∀ (s : State) (r : Fault), s.Inv → step s ≠ .fault r

/-! ## Pseudo-instructions -/

/-- Rule R100: every pseudo-instruction expands to the commands of the rule's table, which compute what its name says and
leave the state given here; those with a constraint have no expansion when it fails. -/
def Obligations.PseudoExpansionsCompute : Prop :=
  ∀ (s : State) (vq vr vd vt ra rb : Reg) (imm : BitVec 64) (imm32 : Word), s.Inv →
    let L := s.cfg.limbs
    let a := val (s.reg ra)
    let b := val (s.reg rb)
    ExpandsTo (.clr vd) [.zero vd] s { s with v := s.v.set vd (blob L 0), dz := false } ∧
    ExpandsTo (.ldi vd imm) [.ldu64 vd imm] s { s with v := s.v.set vd (blob L imm.toNat), dz := false } ∧
    ExpandsTo .nop [.mov 0 0] s { s with dz := false } ∧
    ExpandsTo (.tst ra) [.isnull ra] s { s with z := decide (a = 0), dz := false } ∧
    ExpandsTo (.sqr vd ra) [.mul vd ra ra] s { s with v := s.v.set vd (blob L (a * a)), dz := false } ∧
    ExpandsTo (.muli vd ra imm32) [.muls vd ra imm32] s
      { s with v := s.v.set vd (blob L (a * imm32.toNat)), dz := false } ∧
    (vt = ra → Pseudo.expand (.addi vd ra imm vt) = none ∧ Pseudo.expand (.subi vd ra imm vt) = none ∧
      Pseudo.expand (.divi vd ra imm vt) = none ∧ Pseudo.expand (.cmpi ra imm vt) = none) ∧
    (vt ≠ ra →
      ExpandsTo (.addi vd ra imm vt) [.ldu64 vt imm, .add vd ra vt] s
        { s with v := (s.v.set vt (blob L imm.toNat)).set vd (blob L (a + imm.toNat)), dz := false } ∧
      ExpandsTo (.subi vd ra imm vt) [.ldu64 vt imm, .sub vd ra vt] s
        { s with v := (s.v.set vt (blob L imm.toNat)).set vd (blob L (2 ^ bitsN s + a - imm.toNat)), dz := false } ∧
      (imm.toNat ≠ 0 → ExpandsTo (.divi vd ra imm vt) [.ldu64 vt imm, .div vd ra vt] s
        { s with
          v := (s.v.set vt (blob L imm.toNat)).set vd (blob L (a / imm.toNat))
          rem := blob L (a % imm.toNat)
          dz := false }) ∧
      (imm.toNat = 0 → ExpandsTo (.divi vd ra imm vt) [.ldu64 vt imm, .div vd ra vt] s
        { s with v := s.v.set vt (blob L 0), dz := true }) ∧
      ExpandsTo (.cmpi ra imm vt) [.ldu64 vt imm, .cmp ra vt] s
        { s with
          v := s.v.set vt (blob L imm.toNat)
          eq := decide (a = imm.toNat)
          lt := decide (a < imm.toNat)
          gt := decide (imm.toNat < a)
          dz := false }) ∧
    (vq = vr → Pseudo.expand (.divrem vq vr ra rb) = none) ∧
    (vq ≠ vr →
      (b ≠ 0 → ExpandsTo (.divrem vq vr ra rb) [.div vq ra rb, .rdrem vr] s
        { s with
          v := (s.v.set vq (blob L (a / b))).set vr (blob L (a % b))
          rem := blob L (a % b)
          dz := false }) ∧
      (b = 0 → ExpandsTo (.divrem vq vr ra rb) [.div vq ra rb, .rdrem vr] s
        { s with v := s.v.set vr s.rem, dz := false }))

/-! ## What a host reads of TBUF -/

/-- Rules R60, R62, R63 (a): in every state, a host read of 1, 2 or 4 bytes in the TBUF window answers the bytes TBUF
holds there, the byte at the lowest address least significant, and changes nothing else, so the same read again answers
the same. (The zeros above the bytes read are the model's choice, log entry 10.) -/
def Obligations.HostTbufReadAnswersTheBytes : Prop :=
  ∀ (s : State) (i size : Nat) (ts : List HostTxn), (size = 1 ∨ size = 2 ∨ size = 4) →
    i + size ≤ s.cfg.tbufBytes → s.inbox = .read (s.cfg.hostBase + 0x1000 + i) size :: ts →
    step s = .next { s with
      inbox := ts
      outbox := s.outbox ++ [BitVec.ofNat 32 (sumBytes size fun j => s.tbufByte (i + j))] }

/-- Rule R57: after STRAW, a host read of 4 bytes at TBUF offset addr + 4k answers limb k of the value, and the reads at
addr and addr + 4 are together the value mod 2^64. -/
def Obligations.HostReadsLimbsOfRawImage : Prop :=
  ∀ (s : State) (ra : Reg) (addr : Word) (ts : List HostTxn), s.Inv →
    addr.toNat + bitsN s / 8 ≤ s.cfg.tbufBytes →
    (∀ k, k < s.cfg.limbs → s.inbox = .read (s.cfg.hostBase + 0x1000 + (addr.toNat + 4 * k)) 4 :: ts →
      ∃ t w, exec (.straw ra addr) s = .next t ∧ (s.reg ra)[k]? = some w ∧
        step t = .next { t with inbox := ts, outbox := s.outbox ++ [w] }) ∧
    (s.inbox = .read (s.cfg.hostBase + 0x1000 + addr.toNat) 4 ::
        .read (s.cfg.hostBase + 0x1000 + (addr.toNat + 4)) 4 :: ts →
      ∃ t u x lo hi, exec (.straw ra addr) s = .next t ∧ step t = .next u ∧ step u = .next x ∧
        x.outbox = s.outbox ++ [lo, hi] ∧ lo.toNat + 2 ^ 32 * hi.toNat = val (s.reg ra) % 2 ^ 64)
end

