-- ==== Sys2Proof/Laws/Claims.lean ====
section
/-!
SUPPORT. The small lemmas of the words the statements use: a sequence of commands one command at a time, and the digit
class of rule R200 as the codec computes it.
-/

namespace Sys2Proof.Claims

open Sys2Proof.Machine

@[simp] theorem runs_nil (s t : State) : Runs [] s t ↔ t = s := Iff.rfl

/-- A sequence whose first command completes runs as the rest of it from there. -/
theorem runs_cons_of_next {i : Instr} {s u : State} (h : exec i s = .next u) (is : List Instr) (t : State) :
    Runs (i :: is) s t ↔ Runs is u t :=
  ⟨fun ⟨_, h', hr⟩ => Host.Outcome.next.inj (h.symm.trans h') ▸ hr, fun hr => ⟨u, h, hr⟩⟩

/-- The codec's digit class is that of rule R200, on every byte value. -/
theorem hexVal_eq_digitValue : ∀ c : Byte, hexVal c = digitValue c := by decide +kernel

/-- The codec's whitespace is that of rule R201, on every byte value. -/
theorem isSpace_iff_isBlank (c : Byte) : isSpace c = true ↔ IsBlank c := by
  simp [isSpace, IsBlank, or_assoc]

end Sys2Proof.Claims
end

