-- ==== Sys2Proof/Laws/Encoding.lean ====
section
/-!
SUPPORT. The fields of a packed word0 read back (rule R81), and no encoder sets a reserved bit (rule R87).
-/

namespace Sys2Proof

theorem opcOf_packWord0 (op : Op) (rd ra rb : Reg) : opcOf (packWord0 op rd ra rb) = op.code := by
  have := rd.isLt; have := ra.isLt; have := rb.isLt
  simp only [opcOf, slice, packWord0, BitVec.toNat_ofNat]
  cases op <;> simp only [Op.code] <;> omega

theorem rdOf_packWord0 (op : Op) (rd ra rb : Reg) : rdOf (packWord0 op rd ra rb) = rd := by
  have := rd.isLt; have := ra.isLt; have := rb.isLt
  apply Fin.ext
  simp only [rdOf, slice, packWord0, BitVec.toNat_ofNat, Fin.ofNat]
  cases op <;> simp only [Op.code] <;> omega

theorem raOf_packWord0 (op : Op) (rd ra rb : Reg) : raOf (packWord0 op rd ra rb) = ra := by
  have := rd.isLt; have := ra.isLt; have := rb.isLt
  apply Fin.ext
  simp only [raOf, slice, packWord0, BitVec.toNat_ofNat, Fin.ofNat]
  cases op <;> simp only [Op.code] <;> omega

theorem rbOf_packWord0 (op : Op) (rd ra rb : Reg) : rbOf (packWord0 op rd ra rb) = rb := by
  have := rd.isLt; have := ra.isLt; have := rb.isLt
  apply Fin.ext
  simp only [rbOf, slice, packWord0, BitVec.toNat_ofNat, Fin.ofNat]
  cases op <;> simp only [Op.code] <;> omega

/-- A word0 selects the row whose OPC it holds (rule R86). -/
theorem Op.ofWord0_of_opcOf (op : Op) (w : Word) (h : opcOf w = op.code) : Op.ofWord0 w = some op := by
  simp only [Op.ofWord0, h]; cases op <;> decide

/-- … and only that one. -/
theorem Op.opcOf_of_ofWord0 (op : Op) (w : Word) (h : Op.ofWord0 w = some op) : opcOf w = op.code := by
  have := List.find?_some h
  simp only [beq_iff_eq] at this
  exact this.symm

theorem Instr.ofWord0_word0 (i : Instr) : Op.ofWord0 i.word0 = some i.op :=
  Op.ofWord0_of_opcOf _ _ (by cases i <;> exact opcOf_packWord0 _ _ _ _)

/-! The reserved bits of a packed word0, by the mask of its opcode (rule R86). -/

theorem packWord0_and_rd (op : Op) : ∀ rd : Reg, packWord0 op rd 0 0 &&& 0x0FFFFF#32 = 0#32 := by
  cases op <;> decide +kernel

theorem packWord0_and_ra (op : Op) : ∀ ra : Reg, packWord0 op 0 ra 0 &&& 0xF0FFFF#32 = 0#32 := by
  cases op <;> decide +kernel

theorem packWord0_and_cmp : ∀ ra rb : Reg, packWord0 .cmp 0 ra rb &&& 0xF00FFF#32 = 0#32 := by decide +kernel

theorem packWord0_and_res (op : Op) (rd ra rb : Reg) : packWord0 op rd ra rb &&& 0xFFF#32 = 0#32 := by
  have := rd.isLt; have := ra.isLt; have := rb.isLt
  apply BitVec.eq_of_toNat_eq
  rw [BitVec.toNat_and, show (0xFFF#32).toNat = 2 ^ 12 - 1 by rfl, Nat.and_two_pow_sub_one_eq_mod]
  simp only [packWord0, BitVec.toNat_ofNat]
  cases op <;> simp only [Op.code] <;> omega

theorem packWord0_and_rdra (op : Op) (rd ra : Reg) : packWord0 op rd ra 0 &&& 0xFFFF#32 = 0#32 := by
  have := rd.isLt; have := ra.isLt
  apply BitVec.eq_of_toNat_eq
  rw [BitVec.toNat_and, show (0xFFFF#32).toNat = 2 ^ 16 - 1 by rfl, Nat.and_two_pow_sub_one_eq_mod]
  simp only [packWord0, BitVec.toNat_ofNat, Fin.val_zero]
  cases op <;> simp only [Op.code] <;> omega

theorem reservedSet_rd (op : Op) (h : op.mask = 0xFF0FFFFF#32) (rd : Reg) :
    op.reservedSet (packWord0 op rd 0 0) = false := by
  unfold Op.reservedSet
  rw [h, bne_eq_false_iff_eq, BitVec.and_assoc, show 0xFF0FFFFF#32 &&& 0x00FFFFFF#32 = 0x0FFFFF#32 by decide,
    packWord0_and_rd]

theorem reservedSet_ra (op : Op) (h : op.mask = 0xFFF0FFFF#32) (ra : Reg) :
    op.reservedSet (packWord0 op 0 ra 0) = false := by
  unfold Op.reservedSet
  rw [h, bne_eq_false_iff_eq, BitVec.and_assoc, show 0xFFF0FFFF#32 &&& 0x00FFFFFF#32 = 0xF0FFFF#32 by decide,
    packWord0_and_ra]

theorem reservedSet_rdra (op : Op) (h : op.mask = 0xFF00FFFF#32) (rd ra : Reg) :
    op.reservedSet (packWord0 op rd ra 0) = false := by
  unfold Op.reservedSet
  rw [h, bne_eq_false_iff_eq, BitVec.and_assoc, show 0xFF00FFFF#32 &&& 0x00FFFFFF#32 = 0xFFFF#32 by decide,
    packWord0_and_rdra]

theorem reservedSet_rdrarb (op : Op) (h : op.mask = 0xFF000FFF#32) (rd ra rb : Reg) :
    op.reservedSet (packWord0 op rd ra rb) = false := by
  unfold Op.reservedSet
  rw [h, bne_eq_false_iff_eq, BitVec.and_assoc, show 0xFF000FFF#32 &&& 0x00FFFFFF#32 = 0xFFF#32 by decide,
    packWord0_and_res]

theorem reservedSet_cmp (ra rb : Reg) : Op.cmp.reservedSet (packWord0 .cmp 0 ra rb) = false := by
  unfold Op.reservedSet
  rw [show Op.cmp.mask = 0xFFF00FFF#32 from rfl, bne_eq_false_iff_eq, BitVec.and_assoc,
    show 0xFFF00FFF#32 &&& 0x00FFFFFF#32 = 0xF00FFF#32 by decide, packWord0_and_cmp]

/-- The encoder sets no reserved bit (rule R87). -/
theorem Instr.reservedSet_word0 (i : Instr) : i.op.reservedSet i.word0 = false := by
  cases i
  case zero | ldu64 | ldraw | hexdec | rdrem => exact reservedSet_rd _ rfl _
  case straw | hexenc | isnull | bits | trunc256 => exact reservedSet_ra _ rfl _
  case cmp => exact reservedSet_cmp _ _
  case and | or | xor | add | sub | mul | div => exact reservedSet_rdrarb _ rfl _ _ _
  all_goals exact reservedSet_rdra _ rfl _ _

end Sys2Proof
end

