-- ==== Sys2Proof/Laws/Limbs.lean ====
section
/-!
SUPPORT. The lengths of the limb algorithms' results, and the bounds of `val`.
-/

namespace Sys2Proof.Machine

@[simp] theorem blob_length (n x : Nat) : (blob n x).length = n := by
  induction n generalizing x with
  | zero => rfl
  | succ n ih => simp [blob, ih]

@[simp] theorem zeroBlob_length (n : Nat) : (zeroBlob n).length = n := by simp [zeroBlob]

@[simp] theorem val_nil : val [] = 0 := rfl
@[simp] theorem val_cons (l : Word) (ls : Blob) : val (l :: ls) = l.toNat + 2 ^ 32 * val ls := rfl

/-- A value of n limbs is below 2^(32n) (rule R10). -/
theorem val_lt (v : Blob) : val v < 2 ^ (32 * v.length) := by
  induction v with
  | nil => simp
  | cons l ls ih =>
    have hl := l.isLt
    have h : 2 ^ (32 * (l :: ls).length) = 2 ^ 32 * 2 ^ (32 * ls.length) := by
      rw [List.length_cons, Nat.mul_add, Nat.mul_one, Nat.add_comm, Nat.pow_add]
    rw [val_cons, h]
    calc l.toNat + 2 ^ 32 * val ls < 2 ^ 32 + 2 ^ 32 * val ls := by omega
      _ = 2 ^ 32 * (val ls + 1) := by ring
      _ ≤ 2 ^ 32 * 2 ^ (32 * ls.length) := Nat.mul_le_mul_left _ ih

@[simp] theorem raw_length (v : Blob) : (raw v).length = 4 * v.length := by
  induction v with
  | nil => rfl
  | cons l ls ih => simp only [raw, limbBytes, List.length_append, List.length_cons, List.length_nil, ih]; omega

theorem fromRaw_length (bs : List Byte) : (fromRaw bs).length = bs.length / 4 := by
  induction bs using fromRaw.induct with
  | case1 b0 b1 b2 b3 bs ih => simp only [fromRaw, List.length_cons, ih]; omega
  | case2 bs h =>
    match bs, h with
    | [], _ => rfl
    | [_], _ => simp [fromRaw]
    | [_, _], _ => simp [fromRaw]
    | [_, _, _], _ => simp [fromRaw]
    | b0 :: b1 :: b2 :: b3 :: bs, h => exact absurd rfl (h b0 b1 b2 b3 bs)

@[simp] theorem notBlob_length (a : Blob) : (notBlob a).length = a.length := by simp [notBlob]
@[simp] theorem andBlob_length (a b : Blob) : (andBlob a b).length = min a.length b.length := by simp [andBlob]
@[simp] theorem orBlob_length (a b : Blob) : (orBlob a b).length = min a.length b.length := by simp [orBlob]
@[simp] theorem xorBlob_length (a b : Blob) : (xorBlob a b).length = min a.length b.length := by simp [xorBlob]

@[simp] theorem shlBits_length (r : Nat) (below : Word) (a : Blob) : (shlBits r below a).length = a.length := by
  induction a generalizing below with
  | nil => rfl
  | cons l ls ih => simp [shlBits, ih]

@[simp] theorem shlBlob_length (a : Blob) (s : Nat) : (shlBlob a s).length = a.length := by
  simp [shlBlob]

@[simp] theorem shrBits_length (r : Nat) (a : Blob) : (shrBits r a).length = a.length := by
  induction a using shrBits.induct with
  | case1 => rfl
  | case2 a => rfl
  | case3 a b as ih => simp only [shrBits, List.length_cons, ih]

@[simp] theorem shrBlob_length (a : Blob) (s : Nat) : (shrBlob a s).length = a.length := by
  simp only [shrBlob, List.length_append, shrBits_length, List.length_drop, zeroBlob_length]; omega

@[simp] theorem addLoop_length (c : Nat) (a b : Blob) : (addLoop c a b).length = min a.length b.length := by
  induction a generalizing c b with
  | nil => simp [addLoop]
  | cons a as ih =>
    cases b with
    | nil => simp [addLoop]
    | cons b bs => simp [addLoop, ih]

@[simp] theorem addBlob_length (a b : Blob) : (addBlob a b).length = min a.length b.length := addLoop_length 0 a b

@[simp] theorem incBlob_length (a : Blob) : (incBlob a).length = a.length := by
  induction a with
  | nil => rfl
  | cons a as ih => unfold incBlob; split <;> simp [ih]

@[simp] theorem decBlob_length (a : Blob) : (decBlob a).length = a.length := by
  induction a with
  | nil => rfl
  | cons a as ih => unfold decBlob; split <;> simp [ih]

@[simp] theorem negBlob_length (a : Blob) : (negBlob a).length = a.length := by simp [negBlob]
@[simp] theorem subBlob_length (a b : Blob) : (subBlob a b).length = min a.length b.length := by simp [subBlob]

@[simp] theorem mulsLoop_length (m : Word) (c : Nat) (a : Blob) : (mulsLoop m c a).length = a.length := by
  induction a generalizing c with
  | nil => rfl
  | cons a as ih => simp [mulsLoop, ih]

@[simp] theorem mulsBlob_length (a : Blob) (m : Word) : (mulsBlob a m).length = a.length := mulsLoop_length m 0 a

@[simp] theorem mulRow_length (aj : Word) (c : Nat) (r b : Blob) : (mulRow aj c r b).length = r.length := by
  induction r generalizing c b with
  | nil => simp [mulRow]
  | cons r rs ih =>
    cases b with
    | nil => simp [mulRow]
    | cons b bs => simp [mulRow, ih]

@[simp] theorem mulLoop_length (b a res : Blob) : (mulLoop b a res).length = res.length := by
  induction a generalizing res with
  | nil => simp [mulLoop]
  | cons a as ih =>
    cases res with
    | nil => simp [mulLoop]
    | cons r rs =>
      have h := mulRow_length a 0 (r :: rs) b
      simp only [mulLoop]
      cases hq : mulRow a 0 (r :: rs) b with
      | nil => rw [hq] at h; simp at h
      | cons q qs => rw [hq] at h; simpa [ih] using h

@[simp] theorem mulBlob_length (a b : Blob) : (mulBlob a b).length = a.length := by simp [mulBlob]

@[simp] theorem setBit_length (q : Blob) (i : Nat) : (setBit q i).length = q.length := by simp [setBit]

theorem divLoop_length (n : Nat) (num dvs q : Blob) (h : num.length = dvs.length) :
    (divLoop n num dvs q).1.length = q.length ∧ (divLoop n num dvs q).2.length = num.length := by
  induction n generalizing num dvs q with
  | zero => exact ⟨rfl, rfl⟩
  | succ n ih =>
    unfold divLoop
    split
    · exact ih num _ q (by simpa using h)
    · have := ih (subBlob num dvs) (shrBlob dvs 1) (setBit q n) (by simp [h])
      simpa [h] using this

/-- A division's quotient and remainder have the operands' limb count. -/
theorem divBlob_length (a b q r : Blob) (h : a.length = b.length) (hd : divBlob a b = some (q, r)) :
    q.length = a.length ∧ r.length = a.length := by
  simp only [divBlob] at hd
  split at hd
  · cases hd
  · split at hd
    · cases hd; simp
    · have := divLoop_length (bitsBlob a - bitsBlob b + 1) a (shlBlob b (bitsBlob a - bitsBlob b))
        (zeroBlob a.length) (by simpa using h)
      simp only [Option.some.injEq] at hd
      rw [hd] at this
      simpa using this

/-- bits of a value of n limbs is at most 32n (rule R169). -/
theorem bitsBlob_le (v : Blob) : bitsBlob v ≤ 32 * v.length := by
  unfold bitsBlob
  split
  · omega
  · rename_i h
    have := (Nat.log2_lt h).mpr (val_lt v)
    omega

/-- bits is 0 exactly for the zero value (rule R169). -/
theorem bitsBlob_eq_zero (v : Blob) : bitsBlob v = 0 ↔ val v = 0 := by
  unfold bitsBlob
  split <;> simp_all

/-- A division answers nothing exactly for a zero divisor (rule R167, step 2). -/
theorem divBlob_eq_none (a b : Blob) : divBlob a b = none ↔ val b = 0 := by
  unfold divBlob
  rw [← bitsBlob_eq_zero b]
  by_cases h : bitsBlob b = 0
  · simp [h]
  · simp only [h, if_false, iff_false]
    split <;> simp

/-! ## Hex -/

@[simp] theorem hexByte_length (b : Byte) : (hexByte b).length = 2 := rfl

theorem hexText_length (v : Blob) : (hexText v).length = 8 * v.length := by
  have h : ∀ bs : List Byte, (bs.flatMap hexByte).length = 2 * bs.length := by
    intro bs
    induction bs with
    | nil => rfl
    | cons b bs ih => simp only [List.flatMap_cons, List.length_append, hexByte_length, ih, List.length_cons]; omega
  rw [hexText, h, List.length_reverse, raw_length]; omega

@[simp] theorem fillBytes_length (n : Nat) (bs : List Byte) : (fillBytes n bs).length = n := by
  simp only [fillBytes, List.length_append, List.length_take, List.length_replicate]; omega

theorem hexParse_length (n : Nat) (text : List Byte) : (hexParse n text).length = n / 4 := by
  simp [hexParse, fromRaw_length]

end Sys2Proof.Machine
end

