-- ==== Sys2Proof/Laws/State.lean ====
section
/-!
SUPPORT. The small lemmas of the state: one per field per update, and what the accessors of Machine/Ops.lean and
Machine/Flags.lean do to each other.
-/

namespace Sys2Proof.Machine

/-! ## setReg -/

@[simp] theorem State.setReg_cfg (s : State) (r : Reg) (b : Blob) : (s.setReg r b).cfg = s.cfg := rfl
@[simp] theorem State.setReg_rem (s : State) (r : Reg) (b : Blob) : (s.setReg r b).rem = s.rem := rfl
@[simp] theorem State.setReg_sr (s : State) (r : Reg) (b : Blob) : (s.setReg r b).sr = s.sr := rfl
@[simp] theorem State.setReg_eq (s : State) (r : Reg) (b : Blob) : (s.setReg r b).eq = s.eq := rfl
@[simp] theorem State.setReg_lt (s : State) (r : Reg) (b : Blob) : (s.setReg r b).lt = s.lt := rfl
@[simp] theorem State.setReg_gt (s : State) (r : Reg) (b : Blob) : (s.setReg r b).gt = s.gt := rfl
@[simp] theorem State.setReg_z (s : State) (r : Reg) (b : Blob) : (s.setReg r b).z = s.z := rfl
@[simp] theorem State.setReg_dz (s : State) (r : Reg) (b : Blob) : (s.setReg r b).dz = s.dz := rfl
@[simp] theorem State.setReg_faulted (s : State) (r : Reg) (b : Blob) : (s.setReg r b).faulted = s.faulted := rfl
@[simp] theorem State.setReg_cause (s : State) (r : Reg) (b : Blob) : (s.setReg r b).cause = s.cause := rfl
@[simp] theorem State.setReg_fword (s : State) (r : Reg) (b : Blob) : (s.setReg r b).fword = s.fword := rfl
@[simp] theorem State.setReg_pend (s : State) (r : Reg) (b : Blob) : (s.setReg r b).pend = s.pend := rfl
@[simp] theorem State.setReg_tbuf (s : State) (r : Reg) (b : Blob) : (s.setReg r b).tbuf = s.tbuf := rfl
@[simp] theorem State.setReg_epoch (s : State) (r : Reg) (b : Blob) : (s.setReg r b).epoch = s.epoch := rfl
@[simp] theorem State.setReg_inbox (s : State) (r : Reg) (b : Blob) : (s.setReg r b).inbox = s.inbox := rfl
@[simp] theorem State.setReg_outbox (s : State) (r : Reg) (b : Blob) : (s.setReg r b).outbox = s.outbox := rfl

/-- The read of a register after a write: the written value there, the old one elsewhere (rule R22). -/
theorem State.reg_setReg (s : State) (r q : Reg) (b : Blob) :
    (s.setReg r b).reg q = if r = q then b else s.reg q := by
  simp only [State.reg, State.setReg, Fin.getElem_fin, Vector.getElem_set, Fin.ext_iff]

@[simp] theorem State.reg_setReg_same (s : State) (r : Reg) (b : Blob) : (s.setReg r b).reg r = b := by
  simp [State.reg_setReg]

theorem State.reg_setReg_ne (s : State) {r q : Reg} (b : Blob) (h : r ≠ q) : (s.setReg r b).reg q = s.reg q := by
  simp [State.reg_setReg, h]

@[simp] theorem State.reg_resetOf (c : Config) (r : Reg) : (State.resetOf c).reg r = zeroBlob c.limbs := by
  simp [State.reg, State.resetOf, zeroBlob]

/-! ## memWrite -/

@[simp] theorem State.memWrite_cfg (s : State) (a : Nat) (bs : List Byte) : (s.memWrite a bs).cfg = s.cfg := rfl
@[simp] theorem State.memWrite_v (s : State) (a : Nat) (bs : List Byte) : (s.memWrite a bs).v = s.v := rfl
@[simp] theorem State.memWrite_rem (s : State) (a : Nat) (bs : List Byte) : (s.memWrite a bs).rem = s.rem := rfl
@[simp] theorem State.memWrite_sr (s : State) (a : Nat) (bs : List Byte) : (s.memWrite a bs).sr = s.sr := rfl
@[simp] theorem State.memWrite_eq (s : State) (a : Nat) (bs : List Byte) : (s.memWrite a bs).eq = s.eq := rfl
@[simp] theorem State.memWrite_lt (s : State) (a : Nat) (bs : List Byte) : (s.memWrite a bs).lt = s.lt := rfl
@[simp] theorem State.memWrite_gt (s : State) (a : Nat) (bs : List Byte) : (s.memWrite a bs).gt = s.gt := rfl
@[simp] theorem State.memWrite_z (s : State) (a : Nat) (bs : List Byte) : (s.memWrite a bs).z = s.z := rfl
@[simp] theorem State.memWrite_dz (s : State) (a : Nat) (bs : List Byte) : (s.memWrite a bs).dz = s.dz := rfl
@[simp] theorem State.memWrite_faulted (s : State) (a : Nat) (bs : List Byte) :
    (s.memWrite a bs).faulted = s.faulted := rfl
@[simp] theorem State.memWrite_cause (s : State) (a : Nat) (bs : List Byte) : (s.memWrite a bs).cause = s.cause :=
  rfl
@[simp] theorem State.memWrite_fword (s : State) (a : Nat) (bs : List Byte) : (s.memWrite a bs).fword = s.fword :=
  rfl
@[simp] theorem State.memWrite_pend (s : State) (a : Nat) (bs : List Byte) : (s.memWrite a bs).pend = s.pend := rfl
@[simp] theorem State.memWrite_tbuf (s : State) (a : Nat) (bs : List Byte) :
    (s.memWrite a bs).tbuf = putBytes a bs s.tbuf := rfl
@[simp] theorem State.memWrite_epoch (s : State) (a : Nat) (bs : List Byte) : (s.memWrite a bs).epoch = s.epoch :=
  rfl
@[simp] theorem State.memWrite_inbox (s : State) (a : Nat) (bs : List Byte) : (s.memWrite a bs).inbox = s.inbox :=
  rfl
@[simp] theorem State.memWrite_outbox (s : State) (a : Nat) (bs : List Byte) :
    (s.memWrite a bs).outbox = s.outbox := rfl

/-! ## Flags -/

@[simp] theorem State.setOrder_eq (s : State) (o : Ordering) : (s.setOrder o).eq = decide (o = .eq) := rfl
@[simp] theorem State.setOrder_lt (s : State) (o : Ordering) : (s.setOrder o).lt = decide (o = .lt) := rfl
@[simp] theorem State.setOrder_gt (s : State) (o : Ordering) : (s.setOrder o).gt = decide (o = .gt) := rfl
@[simp] theorem State.setOrder_z (s : State) (o : Ordering) : (s.setOrder o).z = s.z := rfl
@[simp] theorem State.setNull_z (s : State) (b : Bool) : (s.setNull b).z = b := rfl
@[simp] theorem State.setNull_eq (s : State) (b : Bool) : (s.setNull b).eq = s.eq := rfl
@[simp] theorem State.setNull_lt (s : State) (b : Bool) : (s.setNull b).lt = s.lt := rfl
@[simp] theorem State.setNull_gt (s : State) (b : Bool) : (s.setNull b).gt = s.gt := rfl

/-! ## Fault entry and reset -/

@[simp] theorem State.faultEntry_faulted (s : State) (c : Cause) (w : Word) : (s.faultEntry c w).faulted = true := rfl
@[simp] theorem State.faultEntry_cause (s : State) (c : Cause) (w : Word) : (s.faultEntry c w).cause = c := rfl
@[simp] theorem State.faultEntry_fword (s : State) (c : Cause) (w : Word) : (s.faultEntry c w).fword = w := rfl
@[simp] theorem State.faultEntry_pend (s : State) (c : Cause) (w : Word) : (s.faultEntry c w).pend = [] := rfl
@[simp] theorem State.faultEntry_cfg (s : State) (c : Cause) (w : Word) : (s.faultEntry c w).cfg = s.cfg := rfl
@[simp] theorem State.faultEntry_v (s : State) (c : Cause) (w : Word) : (s.faultEntry c w).v = s.v := rfl
@[simp] theorem State.faultEntry_reg (s : State) (c : Cause) (w : Word) (r : Reg) :
    (s.faultEntry c w).reg r = s.reg r := rfl
@[simp] theorem State.faultEntry_rem (s : State) (c : Cause) (w : Word) : (s.faultEntry c w).rem = s.rem := rfl
@[simp] theorem State.faultEntry_sr (s : State) (c : Cause) (w : Word) : (s.faultEntry c w).sr = s.sr := rfl
@[simp] theorem State.faultEntry_eq (s : State) (c : Cause) (w : Word) : (s.faultEntry c w).eq = s.eq := rfl
@[simp] theorem State.faultEntry_lt (s : State) (c : Cause) (w : Word) : (s.faultEntry c w).lt = s.lt := rfl
@[simp] theorem State.faultEntry_gt (s : State) (c : Cause) (w : Word) : (s.faultEntry c w).gt = s.gt := rfl
@[simp] theorem State.faultEntry_z (s : State) (c : Cause) (w : Word) : (s.faultEntry c w).z = s.z := rfl
@[simp] theorem State.faultEntry_dz (s : State) (c : Cause) (w : Word) : (s.faultEntry c w).dz = s.dz := rfl
@[simp] theorem State.faultEntry_tbuf (s : State) (c : Cause) (w : Word) : (s.faultEntry c w).tbuf = s.tbuf := rfl
@[simp] theorem State.faultEntry_epoch (s : State) (c : Cause) (w : Word) : (s.faultEntry c w).epoch = s.epoch := rfl
@[simp] theorem State.faultEntry_inbox (s : State) (c : Cause) (w : Word) : (s.faultEntry c w).inbox = s.inbox := rfl
@[simp] theorem State.faultEntry_outbox (s : State) (c : Cause) (w : Word) :
    (s.faultEntry c w).outbox = s.outbox := rfl
@[simp] theorem State.engineReset_cfg (s : State) : s.engineReset.cfg = s.cfg := rfl
@[simp] theorem State.engineReset_reg (s : State) (r : Reg) : s.engineReset.reg r = zeroBlob s.cfg.limbs :=
  State.reg_resetOf s.cfg r
@[simp] theorem State.engineReset_tbuf (s : State) : s.engineReset.tbuf = [] := rfl
@[simp] theorem State.engineReset_epoch (s : State) : s.engineReset.epoch = s.epoch + 1 := rfl
@[simp] theorem State.engineReset_inbox (s : State) : s.engineReset.inbox = s.inbox := rfl
@[simp] theorem State.engineReset_outbox (s : State) : s.engineReset.outbox = s.outbox := rfl

/-! ## Configurations -/

theorem Config.limbs_mul (c : Config) : 32 * c.limbs = c.width.bits := by
  simp only [Config.limbs]; cases c.width <;> rfl

theorem Config.rawBytes_eq (c : Config) : c.rawBytes = 4 * c.limbs := by
  simp only [Config.limbs, Config.rawBytes]; cases c.width <;> rfl

theorem Config.five_le_limbs (c : Config) : 5 ≤ c.limbs := by
  simp only [Config.limbs]; cases c.width <;> decide

end Sys2Proof.Machine
end

