-- ==== Sys2Proof/Laws/Memory.lean ====
section
/-!
SUPPORT. The laws of the transfer buffer: a read after a write, and that every memory operation keeps the canonical
form.
-/

namespace Sys2Proof.Machine

/-- A listed address after listing a byte: that byte there, what was listed elsewhere. -/
theorem cellAt_putCell (a k : Nat) (b : Byte) (cells : List Host.Cell) (h : Memory.wf cells) :
    cellAt k (putCell a b cells) = if k = a then some b else cellAt k cells := by
  induction cells with
  | nil => simp [putCell, cellAt, eq_comm]
  | cons cell cells ih =>
    obtain ⟨j, c⟩ := cell
    have hrest : Memory.wf cells := by
      simp only [Memory.wf, List.map_cons, List.pairwise_cons] at h; exact h.2
    unfold putCell
    split
    · by_cases hk : k = a
      · simp [cellAt, hk]
      · simp [cellAt, hk, Ne.symm hk]
    · split
      · rename_i haj; subst haj
        by_cases hk : k = a
        · simp [cellAt, hk]
        · simp [cellAt, hk, Ne.symm hk]
      · rename_i hlt hne
        by_cases hj : j = k
        · subst hj; simp [cellAt, Ne.symm hne]
        · simp [cellAt, hj, ih hrest]

/-- The addresses after listing a byte. -/
theorem mem_putCell (a : Nat) (b : Byte) (cells : List Host.Cell) (k : Nat)
    (h : k ∈ (putCell a b cells).map Prod.fst) : k = a ∨ k ∈ cells.map Prod.fst := by
  induction cells with
  | nil => simpa [putCell] using h
  | cons cell cells ih =>
    obtain ⟨j, c⟩ := cell
    unfold putCell at h
    split at h
    · simpa using h
    · split at h
      · simp only [List.map_cons, List.mem_cons] at h ⊢
        rcases h with h | h
        · exact .inl h
        · exact .inr (.inr h)
      · simp only [List.map_cons, List.mem_cons] at h ⊢
        rcases h with h | h
        · exact .inr (.inl h)
        · rcases ih h with h | h
          · exact .inl h
          · exact .inr (.inr h)

/-- Listing a byte keeps the canonical form. -/
theorem putCell_wf (a : Nat) (b : Byte) (cells : List Host.Cell) (h : Memory.wf cells) :
    Memory.wf (putCell a b cells) := by
  induction cells with
  | nil => simp [putCell, Memory.wf]
  | cons cell cells ih =>
    obtain ⟨j, c⟩ := cell
    have h' := h
    simp only [Memory.wf, List.map_cons, List.pairwise_cons] at h
    unfold putCell
    split
    · rename_i hlt
      simp only [Memory.wf, List.map_cons, List.pairwise_cons]
      refine ⟨fun k hk => ?_, h⟩
      simp only [List.mem_cons] at hk
      rcases hk with rfl | hk
      · exact hlt
      · exact Nat.lt_trans hlt (h.1 k hk)
    · split
      · rename_i heq; subst heq
        simpa [Memory.wf] using h
      · rename_i hlt hne
        simp only [Memory.wf, List.map_cons, List.pairwise_cons]
        refine ⟨fun k hk => ?_, ih h.2⟩
        rcases mem_putCell a b cells k hk with rfl | hk
        · omega
        · exact h.1 k hk

/-- Writing bytes keeps the canonical form. -/
theorem putBytes_wf (a : Nat) (bs : List Byte) (cells : List Host.Cell) (h : Memory.wf cells) :
    Memory.wf (putBytes a bs cells) := by
  induction bs generalizing a cells with
  | nil => exact h
  | cons b bs ih => exact ih (a + 1) _ (putCell_wf a b cells h)

/-- The addresses listed after writing bytes. -/
theorem mem_putBytes (a : Nat) (bs : List Byte) (cells : List Host.Cell) (k : Nat)
    (h : k ∈ (putBytes a bs cells).map Prod.fst) :
    (a ≤ k ∧ k < a + bs.length) ∨ k ∈ cells.map Prod.fst := by
  induction bs generalizing a cells with
  | nil => exact .inr h
  | cons b bs ih =>
    rcases ih (a + 1) _ h with ⟨h1, h2⟩ | h'
    · exact .inl ⟨by omega, by simp only [List.length_cons]; omega⟩
    · rcases mem_putCell a b cells k h' with rfl | h'
      · exact .inl ⟨Nat.le_refl _, by simp⟩
      · exact .inr h'

/-- A listed address after writing bytes: the written byte inside, what was listed outside. -/
theorem cellAt_putBytes (a k : Nat) (bs : List Byte) (cells : List Host.Cell) (h : Memory.wf cells) :
    cellAt k (putBytes a bs cells) = if a ≤ k ∧ k < a + bs.length then bs[k - a]? else cellAt k cells := by
  induction bs generalizing a cells with
  | nil => simp [putBytes]
  | cons b bs ih =>
    simp only [putBytes, ih (a + 1) _ (putCell_wf a b cells h), cellAt_putCell a k b cells h, List.length_cons]
    by_cases h1 : a + 1 ≤ k ∧ k < a + 1 + bs.length
    · have h2 : a ≤ k ∧ k < a + (bs.length + 1) := by omega
      obtain ⟨j, rfl⟩ : ∃ j, k = a + 1 + j := ⟨k - (a + 1), by omega⟩
      simp only [if_pos h1, if_pos h2]
      rw [show a + 1 + j - (a + 1) = j by omega, show a + 1 + j - a = j + 1 by omega, List.getElem?_cons_succ]
    · by_cases hk : k = a
      · subst hk; simp
      · have h2 : ¬(a ≤ k ∧ k < a + (bs.length + 1)) := by omega
        rw [if_neg h1, if_neg hk, if_neg h2]

/-- TBUF after a write: the written byte inside, the old byte outside (rule R53). -/
theorem State.tbufByte_memWrite (s : State) (a : Nat) (bs : List Byte) (k : Nat) (h : Memory.wf s.tbuf) :
    (s.memWrite a bs).tbufByte k = if a ≤ k ∧ k < a + bs.length then bs.getD (k - a) 0#8 else s.tbufByte k := by
  simp only [State.tbufByte, State.memWrite_tbuf, cellAt_putBytes a k bs s.tbuf h]
  split
  · rename_i hk
    have hlt : k - a < bs.length := by omega
    simp [hlt]
  · rfl

/-- `MemRead` gives as many bytes as asked for. -/
@[simp] theorem State.memRead_length (s : State) (a n : Nat) : (s.memRead a n).length = n := by
  induction n generalizing a with
  | zero => rfl
  | succ n ih => simp [State.memRead, ih]

/-- Byte j of `MemRead(a, n)` is TBUF[a + j]. -/
theorem State.memRead_getElem? (s : State) (a n j : Nat) (h : j < n) :
    (s.memRead a n)[j]? = some (s.tbufByte (a + j)) := by
  induction n generalizing a j with
  | zero => omega
  | succ n ih =>
    cases j with
    | zero => simp [State.memRead]
    | succ j =>
      simp only [State.memRead, List.getElem?_cons_succ]
      rw [ih (a + 1) j (by omega), show a + 1 + j = a + (j + 1) by omega]

end Sys2Proof.Machine
end

