-- ==== Sys2Proof/Laws/Exec.lean ====
section
/-!
SUPPORT. What the shared operations of a command and of the host port can do: one lemma per operation, cited
instead of unfolding it.
-/

namespace Sys2Proof.Machine

/-! ## The ends of a command -/

theorem State.complete_eq_next (s t : State) : s.complete = .next t ↔ t = { s with dz := false } := by
  simp only [State.complete, Host.Outcome.next.injEq]; exact eq_comm

theorem State.signalDivZero_eq_next (s t : State) : s.signalDivZero = .next t ↔ t = { s with dz := true } := by
  simp only [State.signalDivZero, Host.Outcome.next.injEq]; exact eq_comm

theorem State.raiseFault_eq_next (s t : State) (c : Cause) (i : Instr) :
    s.raiseFault c i = .next t ↔ t = s.faultEntry c i.word0 := by
  simp only [State.raiseFault, Host.Outcome.next.injEq]; exact eq_comm

/-- The frame of completing: the state itself, but for DZ. -/
theorem State.complete_frame {s t : State} (h : s.complete = .next t) :
    { t with dz := s.dz } = s ∧ t.dz = false := by
  rw [State.complete_eq_next] at h; subst h; exact ⟨rfl, rfl⟩

/-! ## Commands that may fault -/

/-- LDRAW ends in one of three ways (rules R113, R246). -/
theorem execLdraw_cases (rd : Reg) (addr len : Word) (s : State) :
    (lenOf len ≠ s.cfg.rawBytes ∧ execLdraw rd addr len s = s.raiseFault .rawLength (.ldraw rd addr len)) ∨
    (lenOf len = s.cfg.rawBytes ∧ addrOf addr + s.cfg.rawBytes ≤ s.cfg.tbufBytes ∧
      execLdraw rd addr len s = (s.setReg rd (fromRaw (s.memRead (addrOf addr) s.cfg.rawBytes))).complete) ∨
    (lenOf len = s.cfg.rawBytes ∧ s.cfg.tbufBytes < addrOf addr + s.cfg.rawBytes ∧
      execLdraw rd addr len s = s.raiseFault .bufferRange (.ldraw rd addr len)) := by
  unfold execLdraw State.inRange
  by_cases hl : lenOf len = s.cfg.rawBytes
  · by_cases hr : addrOf addr + s.cfg.rawBytes ≤ s.cfg.tbufBytes
    · exact .inr (.inl ⟨hl, hr, by simp [hl, hr]⟩)
    · exact .inr (.inr ⟨hl, by omega, by simp [hl, hr]⟩)
  · exact .inl ⟨hl, by simp [hl]⟩

/-- STRAW ends in one of two ways (rule R114). -/
theorem execStraw_cases (ra : Reg) (addr : Word) (s : State) :
    (addrOf addr + s.cfg.rawBytes ≤ s.cfg.tbufBytes ∧
      execStraw ra addr s = (s.memWrite (addrOf addr) (raw (s.reg ra))).complete) ∨
    (s.cfg.tbufBytes < addrOf addr + s.cfg.rawBytes ∧
      execStraw ra addr s = s.raiseFault .bufferRange (.straw ra addr)) := by
  unfold execStraw State.inRange
  by_cases hr : addrOf addr + s.cfg.rawBytes ≤ s.cfg.tbufBytes
  · exact .inl ⟨hr, by simp [hr]⟩
  · exact .inr ⟨by omega, by simp [hr]⟩

/-- HEXENC ends in one of two ways (rule R202). -/
theorem execHexenc_cases (ra : Reg) (addr : Word) (s : State) :
    (addrOf addr + 2 * s.cfg.rawBytes ≤ s.cfg.tbufBytes ∧
      execHexenc ra addr s = (s.memWrite (addrOf addr) (hexText (s.reg ra))).complete) ∨
    (s.cfg.tbufBytes < addrOf addr + 2 * s.cfg.rawBytes ∧
      execHexenc ra addr s = s.raiseFault .bufferRange (.hexenc ra addr)) := by
  unfold execHexenc State.inRange
  by_cases hr : addrOf addr + 2 * s.cfg.rawBytes ≤ s.cfg.tbufBytes
  · exact .inl ⟨hr, by simp [hr]⟩
  · exact .inr ⟨by omega, by simp [hr]⟩

/-- HEXDEC ends in one of two ways (rule R203). -/
theorem execHexdec_cases (rd : Reg) (addr len : Word) (s : State) :
    (addrOf addr + lenOf len ≤ s.cfg.tbufBytes ∧
      execHexdec rd addr len s =
        (s.setReg rd (hexParse s.cfg.rawBytes (s.memRead (addrOf addr) (lenOf len)))).complete) ∨
    (s.cfg.tbufBytes < addrOf addr + lenOf len ∧
      execHexdec rd addr len s = s.raiseFault .bufferRange (.hexdec rd addr len)) := by
  unfold execHexdec State.inRange
  by_cases hr : addrOf addr + lenOf len ≤ s.cfg.tbufBytes
  · exact .inl ⟨hr, by simp [hr]⟩
  · exact .inr ⟨by omega, by simp [hr]⟩

/-- TRUNC256 ends in one of two ways (rule R232). -/
theorem execTrunc256_cases (ra : Reg) (addr : Word) (s : State) :
    (addrOf addr + 32 ≤ s.cfg.tbufBytes ∧
      execTrunc256 ra addr s = (s.memWrite (addrOf addr) ((raw (s.reg ra)).take 32)).complete) ∨
    (s.cfg.tbufBytes < addrOf addr + 32 ∧
      execTrunc256 ra addr s = s.raiseFault .bufferRange (.trunc256 ra addr)) := by
  unfold execTrunc256 State.inRange
  by_cases hr : addrOf addr + 32 ≤ s.cfg.tbufBytes
  · exact .inl ⟨hr, by simp [hr]⟩
  · exact .inr ⟨by omega, by simp [hr]⟩

/-- DIV ends in one of two ways (rule R167). -/
theorem execDiv_cases (rd ra rb : Reg) (s : State) :
    (divBlob (s.reg ra) (s.reg rb) = none ∧ execDiv rd ra rb s = s.signalDivZero) ∨
    (∃ q r, divBlob (s.reg ra) (s.reg rb) = some (q, r) ∧
      execDiv rd ra rb s = { s.setReg rd q with rem := r }.complete) := by
  unfold execDiv
  cases h : divBlob (s.reg ra) (s.reg rb) with
  | none => exact .inl ⟨rfl, rfl⟩
  | some p => exact .inr ⟨p.1, p.2, rfl, rfl⟩

/-! ## The command port -/

/-- word0's checks, in the order of rule R91. -/
theorem checkWord0_cases (c : Config) (w : Word) :
    (Op.ofWord0 w = none ∧ checkWord0 c w = .error .illegalOpcode) ∨
    (∃ op, Op.ofWord0 w = some op ∧ c.classEnabled op.cls = false ∧ checkWord0 c w = .error .classDisabled) ∨
    (∃ op, Op.ofWord0 w = some op ∧ c.classEnabled op.cls = true ∧ op.reservedSet w = true ∧
      checkWord0 c w = .error .rsvdField) ∨
    (∃ op, Op.ofWord0 w = some op ∧ c.classEnabled op.cls = true ∧ op.reservedSet w = false ∧
      checkWord0 c w = .ok op) := by
  unfold checkWord0
  cases h : Op.ofWord0 w with
  | none => exact .inl ⟨rfl, rfl⟩
  | some op =>
    right
    cases hc : c.classEnabled op.cls with
    | false => exact .inl ⟨op, rfl, hc, by simp [hc]⟩
    | true =>
      right
      cases hr : op.reservedSet w with
      | true => exact .inl ⟨op, rfl, hc, hr, by simp [hc, hr]⟩
      | false => exact .inr ⟨op, rfl, hc, hr, by simp [hc, hr]⟩

/-- The host register at offset 0x008 is CMD, wherever the window stands. -/
theorem hostTarget_cmd (s : State) : hostTarget s (s.cfg.hostBase + 0x008) 4 = .reg .cmd := by
  simp [hostTarget, hostRegAt]

/-- What the address map answers, by the offset in the window (rules R38, R61, R62). -/
theorem hostTarget_cases (s : State) (addr size : Nat) :
    (addr < s.cfg.hostBase ∧ hostTarget s addr size = .none .hostOutsideWindow) ∨
    (∃ r, s.cfg.hostBase ≤ addr ∧ addr - s.cfg.hostBase < 0x020 ∧ hostRegAt (addr - s.cfg.hostBase) = some r ∧
      size = 4 ∧ hostTarget s addr size = .reg r) ∨
    (s.cfg.hostBase ≤ addr ∧ addr - s.cfg.hostBase < 0x020 ∧
      (hostRegAt (addr - s.cfg.hostBase) = none ∨ size ≠ 4) ∧
      hostTarget s addr size = .none .hostRegisterAccess) ∨
    (s.cfg.hostBase + 0x020 ≤ addr ∧ addr < s.cfg.hostBase + 0x1000 ∧
      hostTarget s addr size = .none .hostReservedOffset) ∨
    (s.cfg.hostBase + 0x1000 ≤ addr ∧ tbufAccessOk s (addr - s.cfg.hostBase - 0x1000) size = true ∧
      hostTarget s addr size = .tbuf (addr - s.cfg.hostBase - 0x1000)) ∨
    (s.cfg.hostBase + 0x1000 ≤ addr ∧ tbufAccessOk s (addr - s.cfg.hostBase - 0x1000) size = false ∧
      hostTarget s addr size = .none .hostTbufAccess) := by
  by_cases h1 : addr < s.cfg.hostBase
  · exact .inl ⟨h1, by simp only [hostTarget, h1, if_true]⟩
  · right
    by_cases h2 : addr - s.cfg.hostBase < 0x020
    · cases hr : hostRegAt (addr - s.cfg.hostBase) with
      | none =>
        exact .inr (.inl ⟨by omega, h2, .inl rfl, by simp only [hostTarget, h1, h2, hr, if_true, if_false]⟩)
      | some r =>
        by_cases h4 : size = 4
        · exact .inl ⟨r, by omega, h2, rfl, h4, by simp only [hostTarget, h1, h2, hr, h4, if_true, if_false]⟩
        · refine .inr (.inl ⟨by omega, h2, .inr h4, ?_⟩)
          simp only [hostTarget, h1, h2, hr, if_true, if_false]
          split
          · omega
          · rfl
    · right; right
      by_cases h3 : addr - s.cfg.hostBase < 0x1000
      · exact .inl ⟨by omega, by omega, by simp only [hostTarget, h1, h2, h3, if_true, if_false]⟩
      · right
        cases hok : tbufAccessOk s (addr - s.cfg.hostBase - 0x1000) size with
        | true =>
          refine .inl ⟨by omega, rfl, ?_⟩
          simp only [hostTarget, h1, h2, h3, hok, if_true, if_false]
        | false =>
          refine .inr ⟨by omega, rfl, ?_⟩
          simp only [hostTarget, h1, h2, h3, hok, if_false, Bool.false_eq_true]

/-- An access of the TBUF window stays in it (rule R62). -/
theorem hostTarget_tbuf {s : State} {addr size i : Nat} (h : hostTarget s addr size = .tbuf i) :
    i + size ≤ s.cfg.tbufBytes ∧ (size = 1 ∨ size = 2 ∨ size = 4) ∧ addr = s.cfg.hostBase + 0x1000 + i := by
  rcases hostTarget_cases s addr size with ⟨_, h'⟩ | ⟨_, _, _, _, _, h'⟩ | ⟨_, _, _, h'⟩ | ⟨_, _, h'⟩ | ⟨ha, hok, h'⟩ |
      ⟨_, _, h'⟩ <;> rw [h'] at h
  all_goals try exact HostTarget.noConfusion h
  have hi := HostTarget.tbuf.inj h
  simp only [tbufAccessOk, Bool.and_eq_true, Bool.or_eq_true, beq_iff_eq, decide_eq_true_eq] at hok
  omega

/-- A CMD write as the oldest transaction: the step is the command port taking its word. -/
theorem step_cmdWrite (s : State) (w : Word) (ts : List HostTxn) (h : s.inbox = cmdWrite s.cfg w :: ts) :
    step s = receiveWord w { s with inbox := ts } := by
  have ht := hostTarget_cmd { s with inbox := ts }
  simp only [step, nextTxn, h, takeTxn, cmdWrite]
  rw [show s.cfg.hostBase = { s with inbox := ts }.cfg.hostBase from rfl, ht]
  rfl

/-- A word while FAULTED is dropped (rule R93). -/
theorem receiveWord_faulted (w : Word) (s : State) (h : s.faulted = true) : receiveWord w s = .next s := by
  simp [receiveWord, h]

/-- A word0 that fails a check enters FAULTED (rules R91, R242). -/
theorem receiveWord_refused (w : Word) (s : State) (c : Cause) (hf : s.faulted = false) (hp : s.pend = [])
    (hc : checkWord0 s.cfg w = .error c) : receiveWord w s = .next (s.faultEntry c w) := by
  simp [receiveWord, hf, hp, hc]

/-- A word0 that passes its checks is assembled (rule R91). -/
theorem receiveWord_accepted (w : Word) (s : State) (op : Op) (hf : s.faulted = false) (hp : s.pend = [])
    (hc : checkWord0 s.cfg w = .ok op) : receiveWord w s = assemble [w] s := by
  simp [receiveWord, hf, hp, hc]

/-- An extension word is assembled with PEND (rule R92). -/
theorem receiveWord_extension (w w0 : Word) (ws : List Word) (s : State) (hf : s.faulted = false)
    (hp : s.pend = w0 :: ws) : receiveWord w s = assemble (s.pend ++ [w]) s := by
  simp [receiveWord, hf, hp]

end Sys2Proof.Machine
end

