-- ==== Sys2Proof/Laws/PerInstr.lean ====
section
/-!
SUPPORT. Statements made per instruction. `EncodeLength`: the encoding of a command has the word count of its
format (rules R80, R82).
-/

namespace Sys2Proof.Laws.EncodeLength

/-- The encoding has the words its opcode's format gives. -/
def Statement (i : Instr) : Prop := (encode i).length = i.op.words

theorem zero (rd : Reg) : Statement (.zero rd) := rfl
theorem mov (rd ra : Reg) : Statement (.mov rd ra) := rfl
theorem ldu64 (rd : Reg) (imm64 : BitVec 64) : Statement (.ldu64 rd imm64) := rfl
theorem ldraw (rd : Reg) (addr len : Word) : Statement (.ldraw rd addr len) := rfl
theorem straw (ra : Reg) (addr : Word) : Statement (.straw ra addr) := rfl
theorem hexdec (rd : Reg) (addr len : Word) : Statement (.hexdec rd addr len) := rfl
theorem hexenc (ra : Reg) (addr : Word) : Statement (.hexenc ra addr) := rfl
theorem cmp (ra rb : Reg) : Statement (.cmp ra rb) := rfl
theorem isnull (ra : Reg) : Statement (.isnull ra) := rfl
theorem not (rd ra : Reg) : Statement (.not rd ra) := rfl
theorem and (rd ra rb : Reg) : Statement (.and rd ra rb) := rfl
theorem or (rd ra rb : Reg) : Statement (.or rd ra rb) := rfl
theorem xor (rd ra rb : Reg) : Statement (.xor rd ra rb) := rfl
theorem shl (rd ra : Reg) (imm32 : Word) : Statement (.shl rd ra imm32) := rfl
theorem shr (rd ra : Reg) (imm32 : Word) : Statement (.shr rd ra imm32) := rfl
theorem neg (rd ra : Reg) : Statement (.neg rd ra) := rfl
theorem add (rd ra rb : Reg) : Statement (.add rd ra rb) := rfl
theorem sub (rd ra rb : Reg) : Statement (.sub rd ra rb) := rfl
theorem inc (rd ra : Reg) : Statement (.inc rd ra) := rfl
theorem dec (rd ra : Reg) : Statement (.dec rd ra) := rfl
theorem muls (rd ra : Reg) (imm32 : Word) : Statement (.muls rd ra imm32) := rfl
theorem mul (rd ra rb : Reg) : Statement (.mul rd ra rb) := rfl
theorem div (rd ra rb : Reg) : Statement (.div rd ra rb) := rfl
theorem rdrem (rd : Reg) : Statement (.rdrem rd) := rfl
theorem bits (ra : Reg) : Statement (.bits ra) := rfl
theorem trunc256 (ra : Reg) (addr : Word) : Statement (.trunc256 ra addr) := rfl

end Sys2Proof.Laws.EncodeLength
end

