-- ==== Sys2Proof/Tests/Slice0.lean ====
section
/-!
SUPPORT. Tests: the smoke tests of `Instr.wellFormed` and `Config.wf`, the decoder on words written out from the
spec's encodings, and one-step tests whose expected results are the spec's own vectors (95_test_vectors.md) or
examples.
-/

namespace Sys2Proof.Tests

set_option Elab.async false

open Sys2Proof.Machine

/-! ## Helpers -/

def c160 : Config := { Config.fwb512 with width := .w160 }
def c256 : Config := { Config.fwb512 with width := .w256 }
def c160n : Config := { Config.fwb512 with width := .w160, narrowBitwise := true }

/-- The largest value of a width. -/
def maxOf (c : Config) : Nat := 2 ^ c.width.bits - 1

/-- A reset engine with some registers set. -/
def engine (c : Config) (regs : List (Reg × Nat)) : State :=
  regs.foldl (fun s p => s.setReg p.1 (blob c.limbs p.2)) (State.resetOf c)

/-- The engine with the words of one command received but for the last, which is the next CMD write. -/
def issue (ws : List Word) (s : State) : State :=
  { s with pend := ws.dropLast, inbox := [cmdWrite s.cfg (ws.getLastD 0)] }

/-- What one step leaves, none if it stops. -/
def after (s : State) : Option State :=
  match step s with
  | .next t => some t
  | .fault _ => none
  | .refused _ => none

/-- The refusal of one step. -/
def refusal (s : State) : Option Refusal :=
  match step s with
  | .next _ => none
  | .fault _ => none
  | .refused r => some r

/-- A field of the state after one step on the words of a command. -/
def result {α : Type} (ws : List Word) (s : State) (f : State → α) : Option α := (after (issue ws s)).map f

/-- A register's value. -/
def valOf (r : Reg) (s : State) : Nat := val (s.reg r)

/-- The bytes of a text. -/
def text (cs : List Char) : List Byte := cs.map fun c => BitVec.ofNat 8 c.toNat

/-- STATUS, CAUSE and FWORD. -/
def faultRegs (s : State) : Word × Word × Word :=
  (hostRegRead .status s, hostRegRead .cause s, hostRegRead .fword s)

/-! ## Well-formedness smoke tests: each check refuses an ill-formed term -/

/-- E4: ADD on an FWB-256. -/
theorem test_wellFormed_refuses_arith_256 : ¬(Instr.add 3 1 2).wellFormed c256 := by decide

/-- E10: SHL on an FWB-160 with NARROW_BITWISE = false. -/
theorem test_wellFormed_refuses_bitwise_160 : ¬(Instr.shl 2 2 33).wellFormed c160 := by decide

/-- E12: TRUNC256 on an FWB-256. -/
theorem test_wellFormed_refuses_trunc_256 : ¬(Instr.trunc256 7 0).wellFormed c256 := by decide

/-- E11: the same SHL with NARROW_BITWISE = true. -/
theorem test_wellFormed_accepts_bitwise_160n : (Instr.shl 2 2 33).wellFormed c160n := by decide

/-- Rule R8: TBUF_BYTES too small, too large, no multiple of 4. -/
theorem test_config_refuses_sizes : ¬{ c256 with tbufBytes := 124 }.wf ∧ ¬{ c256 with tbufBytes := 65540 }.wf ∧
    ¬{ c256 with tbufBytes := 130 }.wf ∧ c256.wf := by decide

/-! ## Decoding: every constructor from a word written out from rules R81, R84, R86 -/

/-- 0x01 RD=4; 0x02 RD=2 RA=1; 0x03 RD=1, X1, X2. -/
theorem test_decode_zero_mov_ldu64 : decode [0x01400000] = .instr (.zero 4) [] ∧
    decode [0x02210000] = .instr (.mov 2 1) [] ∧
    decode [0x03100000, 0x89ABCDEF, 0x01234567] = .instr (.ldu64 1 0x0123456789ABCDEF) [] := by decide

/-- 0x04 RD, addr, len; 0x05 RA, addr; 0x06 RD, addr, len; 0x07 RA, addr. -/
theorem test_decode_buffer_commands : decode [0x04A00000, 0x20, 0x1F] = .instr (.ldraw 10 0x20 0x1F) [] ∧
    decode [0x050B0000, 0xC1] = .instr (.straw 11 0xC1) [] ∧
    decode [0x06000000, 0x10, 0x4] = .instr (.hexdec 0 0x10 0x4) [] ∧
    decode [0x07010000, 0x80] = .instr (.hexenc 1 0x80) [] := by decide

/-- 0x08 RA RB; 0x09 RA. -/
theorem test_decode_compare : decode [0x08012000] = .instr (.cmp 1 2) [] ∧
    decode [0x09030000] = .instr (.isnull 3) [] := by decide

/-- 0x10 … 0x15. -/
theorem test_decode_bitwise : decode [0x10210000] = .instr (.not 2 1) [] ∧
    decode [0x11312000] = .instr (.and 3 1 2) [] ∧ decode [0x12312000] = .instr (.or 3 1 2) [] ∧
    decode [0x13312000] = .instr (.xor 3 1 2) [] ∧ decode [0x14220000, 0x21] = .instr (.shl 2 2 33) [] ∧
    decode [0x15210000, 0x64] = .instr (.shr 2 1 100) [] := by decide

/-- 0x20 … 0x29. -/
theorem test_decode_arith : decode [0x20210000] = .instr (.neg 2 1) [] ∧
    decode [0x21312000] = .instr (.add 3 1 2) [] ∧ decode [0x22312000] = .instr (.sub 3 1 2) [] ∧
    decode [0x23F10000] = .instr (.inc 15 1) [] ∧ decode [0x24210000] = .instr (.dec 2 1) [] ∧
    decode [0x25210000, 0xFFFFFFFF] = .instr (.muls 2 1 0xFFFFFFFF) [] ∧
    decode [0x26312000] = .instr (.mul 3 1 2) [] ∧ decode [0x27312000] = .instr (.div 3 1 2) [] ∧
    decode [0x28400000] = .instr (.rdrem 4) [] ∧ decode [0x29050000] = .instr (.bits 5) [] := by decide

/-- 0x30 RA, addr. -/
theorem test_decode_trunc : decode [0x30070000, 0x40] = .instr (.trunc256 7 0x40) [] := by decide

/-- E1, E2, E3: illegal opcodes; E6 to E9: reserved bits; E14: words still missing. -/
theorem test_decode_rejects : decode [0] = .illegalOpcode ∧ decode [0x0A000000] = .illegalOpcode ∧
    decode [0xFF000000] = .illegalOpcode ∧ decode [0x21312001] = .reservedField ∧
    decode [0x01010000] = .reservedField ∧ decode [0x09130000] = .reservedField ∧
    decode [0x08012800] = .reservedField ∧ decode [0x03100000] = .incomplete := by decide

/-- Rule R101 read the other way. -/
theorem test_encode_examples : encode (.add 3 1 2) = [0x21312000] ∧ encode (.shl 2 2 33) = [0x14220000, 0x21] ∧
    encode (.ldu64 1 10) = [0x03100000, 0xA, 0x0] ∧ encode (.trunc256 7 0x40) = [0x30070000, 0x40] := by decide

/-- The opcode table's numbering: word0 in bits 31..0, X1 in bits 63..32. -/
theorem test_decodeTableWord : decodeTableWord 32 0x14220000 = some (.shl 2 2 0) ∧
    decodeTableWord 64 0x2114220000 = some (.shl 2 2 33) ∧ decodeTableWord 32 0 = none := by decide

/-- `withFetchWord` from reset: BITS, and LDU64 with operand words of zeros. -/
theorem test_withFetchWord : (after (State.reset.withFetchWord 32 0x29050000)).map (·.sr) = some 0 ∧
    (after (State.reset.withFetchWord 96 (0x03100000 + 7 * 2 ^ 32))).map (valOf 1) = some 7 := by decide +kernel

/-! ## The command port -/

/-- E1, E4 and E5, E6, E7 with their STATUS, CAUSE and FWORD. -/
theorem test_word0_faults : result [0] (engine c160 []) faultRegs = some (0x100, 1, 0) ∧
    result [0x21312000] (engine c256 []) faultRegs = some (0x100, 2, 0x21312000) ∧
    result [0x21312001] (engine c256 []) faultRegs = some (0x100, 2, 0x21312001) ∧
    result [0x21312001] (engine Config.fwb512 []) faultRegs = some (0x100, 3, 0x21312001) ∧
    result [0x01010000] (engine c160 []) faultRegs = some (0x100, 3, 0x01010000) := by decide +kernel

/-- E14, E15: a partial command shows as STATUS.PEND. -/
theorem test_partial_command : result [0x03100000] (engine Config.fwb512 []) (hostRegRead .status) = some 0x200 ∧
    result [0x03100000, 5] (engine Config.fwb512 []) (hostRegRead .status) = some 0x200 := by decide +kernel

/-- F2: a CMD write while FAULTED is dropped. -/
theorem test_faulted_drops : result [0x23110000] ((engine Config.fwb512 [(1, 3)]).faultEntry .rsvdField 0x21111001)
    (fun t => (valOf 1 t, hostRegRead .status t)) = some (3, 0x100) := by decide +kernel

/-- Rules R254, R280: with nothing to answer the engine keeps its state. -/
theorem test_idle : after State.reset = some State.reset := by decide +kernel

/-! ## Host transactions -/

/-- H1 to H5: ID and TBUFSZ. -/
theorem test_id_registers : hostRegRead .id (engine c160 []) = 0x100000A0 ∧
    hostRegRead .id (engine c256 []) = 0x10000100 ∧ hostRegRead .id State.reset = 0x10070200 ∧
    hostRegRead .id (engine { c256 with narrowBitwise := true } []) = 0x10010100 ∧
    hostRegRead .id (engine c160n []) = 0x100100A0 ∧ hostRegRead .tbufsz State.reset = 0x100 := by decide

/-- H12 and rule R62: a 4-byte write, little-endian; P2 line 6: read back as one access. -/
theorem test_host_tbuf : (after { State.reset with inbox := [.write 0x1008 4 0x44332211] }).map
      (fun t => (t.memRead 8 4, wordOfBytes (t.memRead 8 4))) = some ([0x11, 0x22, 0x33, 0x44], 0x44332211) := by
  decide +kernel

/-- H11, H13 and rule R62: refused accesses. -/
theorem test_host_refusals : refusal { State.reset with inbox := [.read 0x020 4] } = some .hostReservedOffset ∧
    refusal { State.reset with inbox := [.write 0x10FE 4 0] } = some .hostTbufAccess ∧
    refusal { State.reset with inbox := [.read 0x1000 3] } = some .hostTbufAccess ∧
    refusal { State.reset with inbox := [.read 0x00C 2] } = some .hostRegisterAccess ∧
    refusal { State.reset with cfg := { Config.fwb512 with hostBase := 8 }, inbox := [.read 4 4] } =
      some .hostOutsideWindow := by decide +kernel

/-- H6, H7: a write to ID is ignored, CMD and CTRL read as 0. -/
theorem test_host_register_access : (after { State.reset with inbox := [.write 0 4 0x12345678] }) = some State.reset ∧
    (after { State.reset with inbox := [.read 0x008 4] }).map (·.outbox) = some [0] ∧
    (after { State.reset with inbox := [.read 0x01C 4] }).map (·.outbox) = some [0] := by decide +kernel

/-- H9, H10, F4: CTRL with SRST = 0 does nothing; with SRST = 1 it resets. -/
theorem test_ctrl_reset :
    (after { (engine Config.fwb512 [(1, 3)]).faultEntry .rsvdField 0x21111001 with
      inbox := [.write 0x01C 4 0] }).map faultRegs = some (0x100, 3, 0x21111001) ∧
    (after { (engine Config.fwb512 [(1, 3)]).faultEntry .rsvdField 0x21111001 with
      inbox := [.write 0x01C 4 0xFFFFFFFF] }) = some { State.reset with epoch := 1 } := by decide +kernel

/-! ## BASIC -/

/-- B1. -/
theorem test_zero : result [0x01400000] (engine Config.fwb512 [(4, maxOf Config.fwb512)]) (valOf 4) = some 0 := by
  decide +kernel

/-- B3: MOV V0, V0 clears DZ. -/
theorem test_mov : result [0x02000000] { engine c256 [(0, 9)] with dz := true } (fun t => (valOf 0 t, t.dz)) =
    some (9, false) := by decide +kernel

/-- B5. -/
theorem test_ldu64 : result [0x03100000, 0x89ABCDEF, 0x01234567] (engine c256 []) (fun t => (t.reg 1).take 3) =
    some [0x89ABCDEF, 0x01234567, 0] := by decide +kernel

/-- B7. -/
theorem test_ldraw : result [0x04000000, 0, 20]
    ((engine c160 []).memWrite 0 ((List.range 20).map fun j => BitVec.ofNat 8 (j + 1))) (valOf 0) =
    some 0x14131211100f0e0d0c0b0a090807060504030201 := by decide +kernel

/-- B9, B11, B13: RAW_LENGTH before BUFFER_RANGE. -/
theorem test_ldraw_faults : result [0x04000000, 0x20, 0x1F] (engine c256 [(0, 5)]) (fun t => (faultRegs t, valOf 0 t)) =
      some ((0x100, 4, 0x04000000), 5) ∧
    result [0x04000000, 0xE1, 0x20] (engine c256 []) faultRegs = some (0x100, 5, 0x04000000) ∧
    result [0x04000000, 0xFFFFFFFF, 31] (engine c256 []) faultRegs = some (0x100, 4, 0x04000000) := by
  decide +kernel

/-- B14. -/
theorem test_straw : result [0x05020000, 0] (engine c160 [(2, 0x0102030405)]) (fun t => t.memRead 0 20) =
    some ([5, 4, 3, 2, 1] ++ List.replicate 15 0) := by decide +kernel

/-- B15: no byte is written when the range fails. -/
theorem test_straw_range : result [0x05010000, 0xC1]
    ((engine Config.fwb512 [(1, maxOf Config.fwb512)]).memWrite 0xC0 [0xAB])
    (fun t => (t.tbuf, hostRegRead .cause t)) = some ([(0xC0, 0xAB)], 5) := by decide +kernel

/-- B17, B18: only the top bit set is not null. -/
theorem test_isnull : result [0x09030000] (engine c256 []) (hostRegRead .status) = some 8 ∧
    result [0x09030000] (engine c256 [(3, 2 ^ 255)]) (·.z) = some false := by decide +kernel

/-- B19, B21, B22. -/
theorem test_cmp : result [0x08011000] { engine c256 [] with z := true } (hostRegRead .status) = some 9 ∧
    result [0x08012000] (engine c256 [(1, 0x100000000), (2, 0xFFFFFFFF)]) (hostRegRead .status) = some 4 ∧
    result [0x08012000] (engine c256 [(1, 0xFF), (2, 0x100)]) (hostRegRead .status) = some 2 := by decide +kernel

/-- X29. -/
theorem test_hexenc : result [0x07010000, 0] (engine c160 [(1, 0xABC)]) (fun t => t.memRead 0 40) =
    some (List.replicate 37 0x30 ++ text ['a', 'b', 'c']) := by decide +kernel

/-- X32, X33: the last position in range, and one past it. -/
theorem test_hexenc_range : result [0x07010000, 0x80] (engine Config.fwb512 [(1, 1)]) (fun t => t.memRead 0xFE 2) =
      some [0x30, 0x31] ∧
    result [0x07010000, 0x81] (engine Config.fwb512 [(1, 1)]) (fun t => (t.tbuf, hostRegRead .cause t)) =
      some ([], 5) := by decide +kernel

/-- X10, X13, X15, X16: an odd run, whitespace and prefix, trailing text, "00x5". -/
theorem test_hexdec : hexParse 20 (text ['1', '2', '3']) = blob 5 0x123 ∧
    hexParse 20 (text [' ', ' ', '0', 'X', '1', 'F']) = blob 5 0x1F ∧
    hexParse 20 (text [' ', '\t', '1', 'f', ' ', 'z', 'z']) = blob 5 0x1F ∧
    hexParse 20 (text ['0', '0', 'x', '5']) = blob 5 0 := by decide +kernel

/-- X20, X24, X27, X28: the text ends at len; the leading of 41 digits is dropped; the range check. -/
theorem test_hexdec_bounds :
    result [0x06000000, 0, 1] ((engine c160 [(0, 7)]).memWrite 0 (text ['0', 'x', '1', 'F'])) (valOf 0) = some 0 ∧
    result [0x06000000, 0, 41]
      ((engine c160 [(0, 7)]).memWrite 0 (text (['1'] ++ List.replicate 39 '0' ++ ['5']))) (valOf 0) = some 5 ∧
    result [0x06000000, 0xFF, 2] (engine c256 [(0, 7)]) (fun t => (valOf 0 t, hostRegRead .cause t)) = some (7, 5) ∧
    result [0x06000000, 0x100, 0] (engine c256 [(0, 7)]) (valOf 0) = some 0 := by decide +kernel

/-! ## BITWISE -/

/-- W3. -/
theorem test_not : result [0x10210000] (engine Config.fwb512 [(1, 0xFFFFFFFF)]) (valOf 2) =
    some (maxOf Config.fwb512 - 0xFFFFFFFF) := by decide +kernel

/-- W4. -/
theorem test_and : result [0x11312000] (engine c160n [(1, 0xF0F0), (2, 0x3C3C)]) (valOf 3) = some 0x3030 := by
  decide +kernel

/-- W5. -/
theorem test_or : result [0x12312000] (engine c160n [(1, 0xF0F0), (2, 0x3C3C)]) (valOf 3) = some 0xFCFC := by
  decide +kernel

/-- W6. -/
theorem test_xor : result [0x13312000] (engine c160n [(1, 0xF0F0), (2, 0x3C3C)]) (valOf 3) = some 0xCCCC := by
  decide +kernel

/-- W9, W13. -/
theorem test_shl : result [0x14220000, 0x21] (engine c160n [(2, 1)]) (valOf 2) = some (2 ^ 33) ∧
    result [0x14210000, 0x1F] (engine Config.fwb512 [(1, 0xFFFFFFFF)]) (valOf 2) = some 0x7FFFFFFF80000000 := by
  decide +kernel

/-- W14, W16: the last amount that leaves a bit, and the largest amount. -/
theorem test_shl_far :
    result [0x14210000, 0x1FF] (engine Config.fwb512 [(1, maxOf Config.fwb512)]) (fun t => (t.reg 2).getLastD 0) =
      some 0x80000000 ∧
    result [0x14210000, 0xFFFFFFFF] (engine Config.fwb512 [(1, maxOf Config.fwb512)])
      (fun t => (valOf 2 t, t.faulted)) = some (0, false) := by decide +kernel

/-- W18, W22. -/
theorem test_shr : result [0x15110000, 1] (engine Config.fwb512 [(1, 2 ^ 33)]) (valOf 1) = some (2 ^ 32) ∧
    result [0x15210000, 33] (engine Config.fwb512 [(1, 0x100000000)]) (valOf 2) = some 0 := by decide +kernel

/-- W20, W21. -/
theorem test_shr_far :
    result [0x15210000, 0x20] (engine Config.fwb512 [(1, maxOf Config.fwb512)]) (fun t => (t.reg 2).drop 14) =
      some [0xFFFFFFFF, 0] ∧
    result [0x15210000, 0x200] (engine Config.fwb512 [(1, maxOf Config.fwb512)]) (valOf 2) = some 0 := by
  decide +kernel

/-! ## ARITH -/

/-- A1, A2. -/
theorem test_neg : result [0x20210000] (engine Config.fwb512 []) (valOf 2) = some 0 ∧
    result [0x20210000] (engine Config.fwb512 [(1, 1)]) (valOf 2) = some (maxOf Config.fwb512) := by decide +kernel

/-- A4, A6. -/
theorem test_add : result [0x21312000] (engine Config.fwb512 [(1, maxOf Config.fwb512), (2, 1)])
      (fun t => (valOf 3 t, hostRegRead .status t)) = some (0, 0) ∧
    result [0x21112000] (engine Config.fwb512 [(1, 0xFFFFFFFF), (2, 1)]) (valOf 1) = some (2 ^ 32) := by
  decide +kernel

/-- A7, A8. -/
theorem test_sub : result [0x22312000] (engine Config.fwb512 [(2, 1)]) (valOf 3) = some (maxOf Config.fwb512) ∧
    result [0x22212000] (engine Config.fwb512 [(1, 5), (2, 3)]) (valOf 2) = some 2 := by decide +kernel

/-- A10, A11. -/
theorem test_inc : result [0x23110000] (engine Config.fwb512 [(1, maxOf Config.fwb512)]) (valOf 1) = some 0 ∧
    result [0x23110000] (engine Config.fwb512 [(1, 0xFFFFFFFF)]) (valOf 1) = some 0x100000000 := by decide +kernel

/-- A12, A13. -/
theorem test_dec : result [0x24110000] (engine Config.fwb512 []) (valOf 1) = some (maxOf Config.fwb512) ∧
    result [0x24210000] (engine Config.fwb512 [(1, 2 ^ 32)]) (valOf 2) = some 0xFFFFFFFF := by decide +kernel

/-- A14, A15. -/
theorem test_muls :
    result [0x25210000, 0xFFFFFFFF] (engine Config.fwb512 [(1, 0xFFFFFFFF)]) (valOf 2) = some 0xFFFFFFFE00000001 ∧
    result [0x25210000, 2] (engine Config.fwb512 [(1, maxOf Config.fwb512)]) (valOf 2) =
      some (maxOf Config.fwb512 - 1) := by decide +kernel

/-- A18, A20. -/
theorem test_mul : result [0x26312000] (engine Config.fwb512 [(1, maxOf Config.fwb512), (2, maxOf Config.fwb512)])
      (valOf 3) = some 1 ∧
    result [0x26111000] (engine Config.fwb512 [(1, 2 ^ 64 - 1)]) (valOf 1) =
      some 0xfffffffffffffffe0000000000000001 := by decide +kernel

/-- A22, A23, A28. -/
theorem test_div : result [0x27312000] (engine Config.fwb512 [(1, 10), (2, 3)])
      (fun t => (valOf 3 t, val t.rem, t.dz)) = some (3, 1, false) ∧
    result [0x27312000] (engine Config.fwb512 [(1, 5), (2, 7)]) (fun t => (valOf 3 t, val t.rem)) = some (0, 5) ∧
    result [0x27212000] (engine Config.fwb512 [(1, 12), (2, 4)]) (fun t => (valOf 2 t, val t.rem)) = some (3, 0) := by
  decide +kernel

/-- A30: DZ, with V3 and REM unchanged. -/
theorem test_div_by_zero : result [0x27312000] { engine Config.fwb512 [(1, 7), (3, 9)] with rem := blob 16 4 }
    (fun t => (valOf 3 t, val t.rem, hostRegRead .status t)) = some (9, 4, 0x10) := by decide +kernel

/-- A32: the old REM after a DIV by zero, and DZ ← 0. -/
theorem test_rdrem : result [0x28400000] { engine Config.fwb512 [] with rem := blob 16 4, dz := true }
    (fun t => (valOf 4 t, t.dz)) = some (4, false) := by decide +kernel

/-- A34, A36, A38. -/
theorem test_bits : result [0x29050000] (engine Config.fwb512 []) (·.sr) = some 0 ∧
    result [0x29050000] (engine Config.fwb512 [(5, 0x100000000)]) (·.sr) = some 33 ∧
    result [0x29050000] (engine Config.fwb512 [(5, 2 ^ 511)]) (·.sr) = some 512 := by decide +kernel

/-! ## TRUNC -/

/-- T1, T4. -/
theorem test_trunc256 : result [0x30070000, 0x40] (engine Config.fwb512 [(7, 2 ^ 256 + 5)])
      (fun t => (t.memRead 0x40 32, t.tbuf.length)) = some ([5] ++ List.replicate 31 0, 32) ∧
    result [0x30070000, 0xE1] (engine Config.fwb512 []) faultRegs = some (0x100, 5, 0x30070000) := by decide +kernel

/-! ## Assembler (rules R99 to R101) -/

/-- Rule R101 and a pseudo-instruction of rule R100. -/
theorem test_assembler : assembleLine "ADD V3, V1, V2".toList = some [.add 3 1 2] ∧
    assembleLine "hexdec v0, [0x10], #4 ; text".toList = some [.hexdec 0 0x10 4] ∧
    assembleLine "DIVREM V1, V2, V3, V4".toList = some [.div 1 3 4, .rdrem 2] := by decide +kernel

/-- Rule R99: an immediate that does not fit, and rule R100's constraint, are errors. -/
theorem test_assembler_errors : assembleLine "SHL V1, V1, #4294967296".toList = none ∧
    assembleLine "ADDI V3, V1, #1, V1".toList = none ∧ assembleLine "ADD V3, V1, V16".toList = none := by
  decide +kernel

end Sys2Proof.Tests
end

