-- ==== Sys2Proof/Tests/Witnesses.lean ====
section
/-!
SUPPORT. For every statement with hypotheses, a concrete state and operands that meet all of them together, at the
boundary values of each clause.
-/

namespace Sys2Proof.Tests

set_option Elab.async false

open Sys2Proof.Machine Sys2Proof.Claims

/-! ## The states the witnesses use -/

/-- An engine of each width with V1 = 10, V2 = 3. -/
def e160 : State := engine c160 [(1, 10), (2, 3)]
def e256 : State := engine c256 [(1, 10), (2, 3)]
def e512 : State := engine Config.fwb512 [(1, 10), (2, 3)]

/-- E14, E15: parts of LDU64 V1, #5 in PEND. -/
def ePend1 : State := { e512 with pend := [0x03100000#32] }
def ePend2 : State := { e512 with pend := [0x03100000#32, 5#32] }

/-- F1: an engine that has faulted. -/
def eFault : State := e512.faultEntry .rsvdField 0x21111001#32

/-- A state about to take one CMD write, and one about to take a host transaction. -/
def withWord (s : State) (w : Word) : State := { s with inbox := [.write (s.cfg.hostBase + 0x008) 4 w] }
def withTxn (s : State) (t : HostTxn) : State := { s with inbox := [t] }

/-- The invariant of a state whose PEND is empty, from its decidable clauses. -/
theorem inv_of_clauses (s : State) (hp : s.pend = [])
    (h : (s.cfg.wf ∧ (∀ r : Reg, (s.reg r).length = s.cfg.limbs) ∧ s.rem.length = s.cfg.limbs ∧
      s.sr.toNat ≤ s.cfg.width.bits) ∧
      (¬(s.eq = true ∧ s.lt = true) ∧ ¬(s.eq = true ∧ s.gt = true) ∧ ¬(s.lt = true ∧ s.gt = true)) ∧
      (s.faulted = true ↔ s.cause ≠ .none) ∧ (s.faulted = false → s.fword = 0#32) ∧
      Memory.wf s.tbuf ∧ ∀ cell ∈ s.tbuf, cell.1 < s.cfg.tbufBytes) : s.Inv :=
  ⟨h.1.1, h.1.2.1, h.1.2.2.1, h.1.2.2.2, h.2.1, h.2.2.1, h.2.2.2.1, fun _ => hp,
    fun _ _ h' => absurd (hp.symm.trans h') (by simp), h.2.2.2.2.1, h.2.2.2.2.2⟩

theorem inv_e160 : e160.Inv := inv_of_clauses _ rfl (by decide +kernel)
theorem inv_e256 : e256.Inv := inv_of_clauses _ rfl (by decide +kernel)
theorem inv_e512 : e512.Inv := inv_of_clauses _ rfl (by decide +kernel)
theorem inv_eFault : eFault.Inv := inv_of_clauses _ rfl (by decide +kernel)

/-- The invariant does not speak of the host's queues. -/
theorem inv_withTxn {s : State} (h : s.Inv) (ts : List HostTxn) : { s with inbox := ts }.Inv :=
  ⟨h.cfg_wf, h.reg_limbs, h.rem_limbs, h.sr_le, h.one_order, h.cause_faulted, h.fword_zero, h.pend_faulted, h.pend_ok,
    h.tbuf_wf, h.tbuf_range⟩

/-- The invariant with words of an accepted command in PEND. -/
theorem inv_withPend {s : State} (h : s.Inv) (hf : s.faulted = false) (pend : List Word) (hp : pendOk s.cfg pend) :
    { s with pend := pend }.Inv :=
  ⟨h.cfg_wf, h.reg_limbs, h.rem_limbs, h.sr_le, h.one_order, h.cause_faulted, h.fword_zero,
    fun h' => absurd (hf.symm.trans h') (by simp), hp, h.tbuf_wf, h.tbuf_range⟩

theorem inv_ePend1 : ePend1.Inv := inv_withPend inv_e512 rfl _ fun w0 ws h => by
  cases h; exact ⟨.ldu64, by decide +kernel⟩

theorem inv_ePend2 : ePend2.Inv := inv_withPend inv_e512 rfl _ fun w0 ws h => by
  cases h; exact ⟨.ldu64, by decide +kernel⟩

/-! ## The command port -/

theorem witness_DecodedWordsAreTheEncoding : decode [0x21312000#32, 7#32] = .instr (.add 3 1 2) [7#32] := by
  decide +kernel

/-- Every boundary of rule R88's ranges. -/
theorem witness_IllegalOpcodeFaultsOnArrival :
    ∀ w ∈ [0x00000000#32, 0x00FFFFFF#32, 0x0A000000#32, 0x0F000000#32, 0x16000000#32, 0x1F000000#32, 0x2A000000#32,
      0x2F000000#32, 0x31000000#32, 0xFF000000#32],
      Ready (withWord e160 w) ∧ NextWord (withWord e160 w) w [] ∧ illegalOpc (w.toNat / 2 ^ 24) := by
  simp only [List.forall_mem_cons]; simp [Ready, NextWord, illegalOpc]; decide

/-- Every boundary of the disabled ranges of rule R230. -/
theorem witness_DisabledClassFaultsOnArrival :
    ∀ w ∈ [0x10000000#32, 0x15000000#32, 0x20000000#32, 0x29000000#32, 0x30070000#32, 0x21312001#32],
      Ready (withWord e256 w) ∧ NextWord (withWord e256 w) w [] ∧ e256.cfg.width ≠ .w512 ∧
        ((0x10 ≤ w.toNat / 2 ^ 24 ∧ w.toNat / 2 ^ 24 ≤ 0x15 ∧ e256.cfg.narrowBitwise = false) ∨
          (0x20 ≤ w.toNat / 2 ^ 24 ∧ w.toNat / 2 ^ 24 ≤ 0x29) ∨ w.toNat / 2 ^ 24 = 0x30) := by
  simp only [List.forall_mem_cons]; simp [Ready, NextWord]; decide

/-- RES bit 0 and bit 11, and one unused field each: RD of ISNULL, RA of ZERO, RB of NOT. -/
theorem witness_ReservedFieldFaultsOnArrival :
    (Ready (withWord e512 0x21312001#32) ∧ NextWord (withWord e512 0x21312001#32) 0x21312001#32 [] ∧
      e512.cfg.classEnabled Op.add.cls = true ∧ (0x21312001 : Nat) / 2 ^ 24 = Op.add.code ∧
      (0x21312001 : Nat) % 2 ^ 12 ≠ 0) ∧
    ((0x08012800 : Nat) / 2 ^ 24 = Op.cmp.code ∧ (0x08012800 : Nat) % 2 ^ 12 ≠ 0) ∧
    ((0x09130000 : Nat) / 2 ^ 24 = Op.isnull.code ∧ usesRd .isnull = false ∧ (0x09130000 : Nat) / 2 ^ 20 % 16 ≠ 0) ∧
    ((0x01010000 : Nat) / 2 ^ 24 = Op.zero.code ∧ usesRa .zero = false ∧ (0x01010000 : Nat) / 2 ^ 16 % 16 ≠ 0) ∧
    ((0x10211000 : Nat) / 2 ^ 24 = Op.not.code ∧ usesRb .not = false ∧ (0x10211000 : Nat) / 2 ^ 12 % 16 ≠ 0) :=
  ⟨⟨⟨rfl, rfl⟩, rfl, by decide⟩, by decide⟩

/-- A one-word command, and the last word of a three-word one. -/
theorem witness_StepRunsTheDecodedCommand :
    ((withWord e512 0x21312000#32).faulted = false ∧ (Instr.add 3 1 2).wellFormed e512.cfg ∧
      (withWord e512 0x21312000#32).pend ++ [0x21312000#32] = encode (.add 3 1 2) ∧
      NextWord (withWord e512 0x21312000#32) 0x21312000#32 []) ∧
    ((withWord ePend2 0#32).faulted = false ∧ (Instr.ldu64 1 5).wellFormed ePend2.cfg ∧
      (withWord ePend2 0#32).pend ++ [0#32] = encode (.ldu64 1 5) ∧ NextWord (withWord ePend2 0#32) 0#32 []) :=
  ⟨⟨rfl, by decide +kernel, by decide +kernel, rfl⟩, rfl, by decide +kernel, by decide +kernel, rfl⟩

/-- A middle word and a last word. -/
theorem witness_ExtensionWordIsAppended :
    ((withWord ePend1 5#32).Inv ∧ ePend1.faulted = false ∧ ePend1.pend = 0x03100000#32 :: [] ∧
      (0x03100000 : Nat) / 2 ^ 24 = Op.ldu64.code ∧ NextWord (withWord ePend1 5#32) 5#32 [] ∧
      ([] : List Word).length + 2 < Op.ldu64.words) ∧
    ((withWord ePend2 0#32).Inv ∧ ePend2.faulted = false ∧ ePend2.pend = 0x03100000#32 :: [5#32] ∧
      NextWord (withWord ePend2 0#32) 0#32 [] ∧ [5#32].length + 2 = Op.ldu64.words) :=
  ⟨⟨inv_withTxn inv_ePend1 _, rfl, rfl, by decide, rfl, by decide⟩, inv_withTxn inv_ePend2 _, rfl, rfl, rfl, by decide⟩

theorem witness_WholeCommandRunsAsExec :
    let s := { e160 with inbox := [.write 8 4 0x03100000#32, .write 8 4 0xA#32, .write 8 4 0#32, .read 0 4] }
    Ready s ∧ (Instr.ldu64 1 10).wellFormed s.cfg ∧
      s.inbox = (encode (.ldu64 1 10)).map (fun w => .write (s.cfg.hostBase + 0x008) 4 w) ++ [.read 0 4] :=
  ⟨⟨rfl, rfl⟩, by decide +kernel, by decide +kernel⟩

theorem witness_FaultedEngineDropsWords : (withWord eFault 0x23110000#32).faulted = true ∧
    NextWord (withWord eFault 0x23110000#32) 0x23110000#32 [] := ⟨rfl, rfl⟩

/-! ## Faults and whole-machine rules -/

/-- A command that completes, and one that faults (RAW_LENGTH). -/
theorem witness_EveryCommandWritesDz : e160.faulted = false ∧
    (∃ t, exec (.zero 0) e160 = .next t ∧ t.faulted = false) ∧
    ∃ t, exec (.ldraw 0 0 19) e160 = .next t ∧ t.faulted = true := ⟨rfl, ⟨_, rfl, rfl⟩, _, rfl, rfl⟩

/-- A CMD write that is dropped, and a soft reset. -/
theorem witness_FaultIsLeftOnlyByReset : (∃ t, eFault.faulted = true ∧ step (withWord eFault 0#32) = .next t ∧
      t.faulted = true) ∧
    ∃ t, step (withTxn eFault (.write 0x01C 4 1#32)) = .next t ∧ t.faulted = false :=
  ⟨⟨_, rfl, rfl, rfl⟩, _, rfl, rfl⟩

theorem witness_OtherCommandsDoNotSeeTbuf : loadsTbuf (.add 3 1 2) = false ∧ storesTbuf (.add 3 1 2) = false ∧
    ∃ t, exec (.add 3 1 2) e512 = .next t := ⟨rfl, rfl, _, rfl⟩

/-! ## Values -/

theorem witness_RawBytesSpellTheValue : 3 < 4 * [0x04030201#32].length ∧
    [1#8, 2#8, 3#8, 4#8].length % 4 = 0 := by decide

/-- The largest shift below N, with the largest amount their sum may reach. -/
theorem witness_ShiftLaws : 31 < 32 * [0x04030201#32].length ∧ 31 + (2 ^ 32 - 32) < 2 ^ 32 := by decide

/-! ## Commands -/

theorem witness_ConstructorsWriteTheirValue : e160.Inv := inv_e160

/-- len = NB − 1 and NB + 1; the last address in range and the first past it, and the largest address. -/
theorem witness_LdrawReadsRawBytes : e256.Inv ∧ bitsN e256 / 8 = 32 ∧ (31#32).toNat ≠ 32 ∧ (33#32).toNat ≠ 32 ∧
    (32#32).toNat = 32 ∧ (0xE0#32).toNat + 32 ≤ e256.cfg.tbufBytes ∧ e256.cfg.tbufBytes < (0xE1#32).toNat + 32 ∧
    e256.cfg.tbufBytes < (0xFFFFFFFF#32).toNat + 32 := ⟨inv_e256, by decide⟩

/-- B15 and B16: 0xC0 is the last address in range at N = 512. -/
theorem witness_StrawWritesRawBytes : e512.Inv ∧ addrOf 0xC0#32 + bitsN e512 / 8 ≤ e512.cfg.tbufBytes ∧
    e512.cfg.tbufBytes < addrOf 0xC1#32 + bitsN e512 / 8 := ⟨inv_e512, by decide⟩

theorem witness_CmpOrdersNumerically : e160.Inv := inv_e160
theorem witness_BitwiseCommandsCombineBits : e512.Inv := inv_e512
theorem witness_ShiftsMultiplyAndDivide : e512.Inv := inv_e512
theorem witness_AdditiveCommandsAreModular : e512.Inv := inv_e512
theorem witness_MultiplicationsAreModular : e512.Inv := inv_e512

/-- A nonzero divisor (V2 = 3) and a zero one (V0). -/
theorem witness_DivComputesFloorDivision : e512.Inv ∧ val (e512.reg 2) ≠ 0 ∧ val (e512.reg 0) = 0 :=
  ⟨inv_e512, by decide +kernel⟩

theorem witness_RdremReadsTheLastRemainder : e512.Inv ∧ isDiv (.add 3 1 2) = false ∧
    ∃ t, exec (.add 3 1 2) e512 = .next t := ⟨inv_e512, rfl, _, rfl⟩

/-- The zero value and a nonzero one. -/
theorem witness_BitsIsOnePastTheHighestBit : e512.Inv ∧ val (e512.reg 0) = 0 ∧ val (e512.reg 1) ≠ 0 :=
  ⟨inv_e512, by decide +kernel⟩

theorem witness_QuotientTimesDivisorPlusRemainder : e512.Inv ∧ val (e512.reg 2) ≠ 0 ∧ (3 : Reg) ≠ 2 ∧ (3 : Reg) ≠ 4 :=
  ⟨inv_e512, by decide +kernel⟩

/-- X32 and X33: 0x80 is the last address in range at N = 512. -/
theorem witness_HexencWritesTheDigits : e512.Inv ∧ addrOf 0x80#32 + bitsN e512 / 4 ≤ e512.cfg.tbufBytes ∧
    e512.cfg.tbufBytes < addrOf 0x81#32 + bitsN e512 / 4 := ⟨inv_e512, by decide⟩

/-- X27 and X28: an empty text at the end of TBUF, and a text past it. -/
theorem witness_HexdecReadsTheDigitRun : e256.Inv ∧ (0x100#32).toNat + (0#32).toNat ≤ e256.cfg.tbufBytes ∧
    e256.cfg.tbufBytes < (0xFF#32).toNat + (2#32).toNat := ⟨inv_e256, by decide⟩

/-- An FWB-160 whose TBUF holds a blank and "0X" before the text of V1 at address 3, and 'g' after it. -/
def eHexText : State :=
  e160.memWrite 0 ([0x20#8, 0x30#8, 0x58#8] ++ text (List.replicate 39 '0' ++ ['a']) ++ [0x67#8])

/-- The list form after blanks and a prefix, before a non-digit; the plain commands at N = 160 at the last address in
range; and the commands on a text with a blank, a prefix and a byte after it. -/
theorem witness_HexRoundTrip : (0 < [7#32].length ∧ (∀ c ∈ [0x20#8, 0x0D#8], IsBlank c) ∧
      IsPrefix [0x30#8, 0x58#8] ∧ digitValue 0x67#8 = none) ∧
    (e160.Inv ∧ (40#32).toNat = bitsN e160 / 4 ∧ (0xD8#32).toNat + bitsN e160 / 4 ≤ e160.cfg.tbufBytes) ∧
    ∃ t, exec (.hexenc 1 3#32) e160 = .next t ∧ (3#32).toNat + bitsN e160 / 4 ≤ e160.cfg.tbufBytes ∧ eHexText.Inv ∧
      eHexText.cfg = e160.cfg ∧
      (∀ j < bitsN e160 / 4, eHexText.tbufByte ((3#32).toNat + j) = t.tbufByte ((3#32).toNat + j)) ∧
      (0#32).toNat + ([0x20#8] ++ [0x30#8, 0x58#8]).length = (3#32).toNat ∧
      (List.range ([0x20#8] ++ [0x30#8, 0x58#8]).length).map (fun j => eHexText.tbufByte ((0#32).toNat + j)) =
        [0x20#8] ++ [0x30#8, 0x58#8] ∧
      (3#32).toNat + bitsN e160 / 4 ≤ (0#32).toNat + (44#32).toNat ∧
      (0#32).toNat + (44#32).toNat ≤ eHexText.cfg.tbufBytes ∧
      digitValue (eHexText.tbufByte ((3#32).toNat + bitsN e160 / 4)) = none :=
  ⟨by decide, ⟨inv_e160, by decide⟩, _, rfl, by decide, inv_of_clauses _ rfl (by decide +kernel), rfl,
    by decide +kernel⟩

theorem witness_RawRoundTrip : e160.Inv ∧ (20#32).toNat = bitsN e160 / 8 ∧
    (0xEC#32).toNat + bitsN e160 / 8 ≤ e160.cfg.tbufBytes := ⟨inv_e160, by decide⟩

/-- TRUNC256 on arrival at N = 256; an FWB-256 holding the low bytes of V1 = 10; 0xE0 is the last address in range. -/
theorem witness_Trunc256WritesTheLowHalf :
    (Ready (withWord e256 (0x30000000#32 ||| atRa 7)) ∧
      NextWord (withWord e256 (0x30000000#32 ||| atRa 7)) (0x30000000#32 ||| atRa 7) [] ∧ e256.cfg.width ≠ .w512) ∧
    (∀ j < 32, (e256.memWrite 0 (10#8 :: List.replicate 31 0#8)).tbufByte (0 + j) =
      BitVec.ofNat 8 (val (e512.reg 1) / 2 ^ (8 * j))) ∧
    (e256.memWrite 0 (10#8 :: List.replicate 31 0#8)).Inv ∧
    e512.Inv ∧ e512.cfg.width = .w512 ∧ addrOf 0xE0#32 + 32 ≤ e512.cfg.tbufBytes ∧
    e512.cfg.tbufBytes < addrOf 0xE1#32 + 32 :=
  ⟨⟨⟨rfl, rfl⟩, rfl, by decide⟩, by decide +kernel, inv_of_clauses _ rfl (by decide +kernel), inv_e512, by decide⟩

/-! ## Host transactions -/

theorem witness_StepAnswersInArrivalOrder : ∃ t, step (withTxn e512 (.read 0 4)) = .next t := ⟨_, rfl⟩

theorem witness_IdRegisterNamesTheInstance : (withTxn e512 (.read 0 4)).inbox = .read (e512.cfg.hostBase + 0x000) 4 :: [] :=
  rfl

theorem witness_StatusShowsFlagsFaultAndPend :
    (withTxn e512 (.read 0xC 4)).inbox = .read (e512.cfg.hostBase + 0x00C) 4 :: [] := rfl

theorem witness_HostRegistersReadTheirValues : (withTxn e512 (.read 0x18 4)).Inv ∧
    (withTxn e512 (.read 0x18 4)).inbox = .read (e512.cfg.hostBase + 0x018) 4 :: [] := ⟨inv_withTxn inv_e512 _, rfl⟩

/-- A read, and a write of TBUF that is none to CMD or CTRL. -/
theorem witness_HostReadsHaveNoSideEffect : (∃ t, step (withTxn e512 (.read 0x1003 2)) = .next t) ∧
    (∃ t, step (withTxn e512 (.write 0x1003 2 5#32)) = .next t) ∧ 0x1003 ≠ e512.cfg.hostBase + 0x008 ∧
    0x1003 ≠ e512.cfg.hostBase + 0x01C := ⟨⟨_, rfl⟩, ⟨_, rfl⟩, by decide⟩

theorem witness_ReadOnlyWritesAreIgnored :
    (withTxn e512 (.write 0x1C 4 2#32)).inbox = .write (e512.cfg.hostBase + 0x01C) 4 2#32 :: [] ∧
    (2#32).getLsbD 0 = false := ⟨rfl, rfl⟩

/-- The ends of each range: 0x01F, 0x01C at a wrong width, 0x020, 0xFFF, 0x1000 with 3 and with 0 bytes, and 0x1000 + 254
with 4 bytes. -/
theorem witness_ForbiddenAccessesAreRefused :
    ((withTxn e512 (.read 0x1F 4)).inbox = .read (e512.cfg.hostBase + 0x01F) 4 :: [] ∧ 0x01F % 4 ≠ 0) ∧
    ((withTxn e512 (.read 0x1C 2)).inbox = .read (e512.cfg.hostBase + 0x01C) 2 :: [] ∧ 2 ≠ 4) ∧
    (withTxn e512 (.read 0x20 4)).inbox = .read (e512.cfg.hostBase + 0x020) 4 :: [] ∧
    (withTxn e512 (.write 0xFFF 1 0#32)).inbox = .write (e512.cfg.hostBase + 0xFFF) 1 0#32 :: [] ∧
    ((withTxn e512 (.read 0x1000 3)).inbox = .read (e512.cfg.hostBase + 0x1000) 3 :: [] ∧ 3 ≠ 1 ∧ 3 ≠ 2 ∧ 3 ≠ 4) ∧
    ((withTxn e512 (.write 0x1000 0 0#32)).inbox = .write (e512.cfg.hostBase + 0x1000) 0 0#32 :: [] ∧
      0 ≠ 1 ∧ 0 ≠ 2 ∧ 0 ≠ 4) ∧
    ((withTxn e512 (.write 0x10FE 4 0#32)).inbox = .write (e512.cfg.hostBase + 0x10FE) 4 0#32 :: [] ∧
      0x1000 + e512.cfg.tbufBytes < 0x10FE + 4) :=
  ⟨⟨rfl, by decide⟩, ⟨rfl, by decide⟩, rfl, rfl, ⟨rfl, by decide⟩, ⟨rfl, by decide⟩, rfl, by decide⟩

/-- The last two bytes of TBUF. -/
theorem witness_HostTbufWriteThenRead :
    let s := { e512 with inbox := [.write 0x10FE 2 0x4433#32, .read 0x10FE 2] }
    s.Inv ∧ 0xFE + 2 ≤ s.cfg.tbufBytes ∧ s.inbox = .write (s.cfg.hostBase + 0x1000 + 0xFE) 2 0x4433#32 ::
      .read (s.cfg.hostBase + 0x1000 + 0xFE) 2 :: [] := ⟨inv_withTxn inv_e512 _, by decide, rfl⟩

/-! ## Reset, invariant, pseudo-instructions -/

theorem witness_SoftResetGivesResetValues :
    (withTxn eFault (.write 0x1C 4 1#32)).inbox = .write (eFault.cfg.hostBase + 0x01C) 4 1#32 :: [] ∧
    (1#32).getLsbD 0 = true := ⟨rfl, rfl⟩

theorem witness_ResetMeetsTheInvariant : c160n.wf := by decide

theorem witness_StepKeepsTheInvariant : (withWord e512 0x21312000#32).Inv ∧
    ∃ t, step (withWord e512 0x21312000#32) = .next t := ⟨inv_withTxn inv_e512 _, _, rfl⟩

theorem witness_StepNeverStopsWithAFault : (withWord ePend1 0#32).Inv := inv_withTxn inv_ePend1 _

/-- A scratch register that is the source and one that is not, a zero and a nonzero immediate, equal and different
result registers, a zero and a nonzero divisor. -/
theorem witness_PseudoExpansionsCompute : e512.Inv ∧ (1 : Reg) = 1 ∧ (4 : Reg) ≠ 1 ∧ (0#64).toNat = 0 ∧
    (7#64).toNat ≠ 0 ∧ (3 : Reg) = 3 ∧ (3 : Reg) ≠ 4 ∧ val (e512.reg 0) = 0 ∧ val (e512.reg 2) ≠ 0 :=
  ⟨inv_e512, by decide +kernel⟩

/-! ## What a host reads of TBUF -/

/-- The first byte, and the last four. -/
theorem witness_HostTbufReadAnswersTheBytes :
    ((withTxn e512 (.read 0x1000 1)).inbox = .read (e512.cfg.hostBase + 0x1000 + 0) 1 :: [] ∧
      0 + 1 ≤ e512.cfg.tbufBytes) ∧
    (withTxn e512 (.read 0x10FC 4)).inbox = .read (e512.cfg.hostBase + 0x1000 + 0xFC) 4 :: [] ∧
    0xFC + 4 ≤ e512.cfg.tbufBytes := ⟨⟨rfl, by decide⟩, rfl, by decide⟩

/-- The last limb of a raw image that ends at the end of TBUF, and the two lowest limbs of one at 0. -/
theorem witness_HostReadsLimbsOfRawImage :
    ((withTxn e160 (.read 0x10FC 4)).Inv ∧ (0xEC#32).toNat + bitsN e160 / 8 ≤ e160.cfg.tbufBytes ∧
      4 < e160.cfg.limbs ∧
      (withTxn e160 (.read 0x10FC 4)).inbox =
        .read (e160.cfg.hostBase + 0x1000 + ((0xEC#32).toNat + 4 * 4)) 4 :: []) ∧
    let s := { e160 with inbox := [.read 0x1000 4, .read 0x1004 4] }
    s.Inv ∧ (0#32).toNat + bitsN s / 8 ≤ s.cfg.tbufBytes ∧
      s.inbox = .read (s.cfg.hostBase + 0x1000 + (0#32).toNat) 4 ::
        .read (s.cfg.hostBase + 0x1000 + ((0#32).toNat + 4)) 4 :: [] :=
  ⟨⟨inv_withTxn inv_e160 _, by decide, by decide, rfl⟩, inv_withTxn inv_e160 _, by decide, rfl⟩

end Sys2Proof.Tests
end

section
/-!
What each layer of a step keeps: no command touches the engine's configuration or its transactions, no write adds an
answer, and a read adds one. From these the arrival order of rule R63 follows.
-/

namespace Sys2Proof.Machine

/-! ## What an operation keeps -/

/-- The configuration, the transactions still to be answered and the answers given are the same in both states
(rules R3, R63). -/
structure State.SameHost (s t : State) : Prop where
  cfg : t.cfg = s.cfg
  inbox : t.inbox = s.inbox
  outbox : t.outbox = s.outbox

/-- Beside the host's side, the fault registers, PEND and the count of resets are the same: what a command that does
not fault leaves unchanged (rules R94, R98). -/
structure State.SameControl (s t : State) : Prop extends State.SameHost s t where
  faulted : t.faulted = s.faulted
  cause : t.cause = s.cause
  fword : t.fword = s.fword
  pend : t.pend = s.pend
  epoch : t.epoch = s.epoch

theorem State.sameHost_refl (s : State) : s.SameHost s := ⟨rfl, rfl, rfl⟩

theorem State.SameHost.trans {s t u : State} (h : s.SameHost t) (h' : t.SameHost u) : s.SameHost u :=
  ⟨h'.cfg.trans h.cfg, h'.inbox.trans h.inbox, h'.outbox.trans h.outbox⟩

theorem State.sameHost_faultEntry (s : State) (c : Cause) (w : Word) : s.SameHost (s.faultEntry c w) :=
  ⟨rfl, rfl, rfl⟩

theorem State.sameHost_engineReset (s : State) : s.SameHost s.engineReset := ⟨rfl, rfl, rfl⟩

theorem State.sameControl_setReg (s : State) (r : Reg) (b : Blob) : s.SameControl (s.setReg r b) :=
  ⟨⟨rfl, rfl, rfl⟩, rfl, rfl, rfl, rfl, rfl⟩

theorem State.sameControl_setReg_rem (s : State) (r : Reg) (b q : Blob) :
    s.SameControl { s.setReg r b with rem := q } :=
  ⟨⟨rfl, rfl, rfl⟩, rfl, rfl, rfl, rfl, rfl⟩

theorem State.sameControl_memWrite (s : State) (a : Nat) (bs : List Byte) : s.SameControl (s.memWrite a bs) :=
  ⟨⟨rfl, rfl, rfl⟩, rfl, rfl, rfl, rfl, rfl⟩

theorem State.sameControl_setOrder (s : State) (o : Ordering) : s.SameControl (s.setOrder o) :=
  ⟨⟨rfl, rfl, rfl⟩, rfl, rfl, rfl, rfl, rfl⟩

theorem State.sameControl_setNull (s : State) (b : Bool) : s.SameControl (s.setNull b) :=
  ⟨⟨rfl, rfl, rfl⟩, rfl, rfl, rfl, rfl, rfl⟩

theorem State.sameControl_sr (s : State) (w : Word) : s.SameControl { s with sr := w } :=
  ⟨⟨rfl, rfl, rfl⟩, rfl, rfl, rfl, rfl, rfl⟩

theorem State.sameControl_dz (s : State) (b : Bool) : s.SameControl { s with dz := b } :=
  ⟨⟨rfl, rfl, rfl⟩, rfl, rfl, rfl, rfl, rfl⟩

/-! ## What a command can do -/

/-- A command ends in one of three ways (rules R94, R240): it completes from a state that differs from the old one in
registers, flags and TBUF alone, it is a division by zero, or it raises one of the two faults of rule R243. -/
theorem exec_cases (i : Instr) (s : State) :
    (∃ u, s.SameControl u ∧ Claims.divByZero i s = false ∧ exec i s = u.complete) ∨
    (Claims.divByZero i s = true ∧ exec i s = s.signalDivZero) ∨
    (∃ c, (c = .rawLength ∨ c = .bufferRange) ∧ exec i s = s.raiseFault c i) := by
  cases i
  case ldraw rd addr len =>
    rcases execLdraw_cases rd addr len s with ⟨-, h⟩ | ⟨-, -, h⟩ | ⟨-, -, h⟩
    · exact .inr (.inr ⟨_, .inl rfl, h⟩)
    · exact .inl ⟨_, s.sameControl_setReg .., rfl, h⟩
    · exact .inr (.inr ⟨_, .inr rfl, h⟩)
  case straw ra addr =>
    rcases execStraw_cases ra addr s with ⟨-, h⟩ | ⟨-, h⟩
    · exact .inl ⟨_, s.sameControl_memWrite .., rfl, h⟩
    · exact .inr (.inr ⟨_, .inr rfl, h⟩)
  case hexdec rd addr len =>
    rcases execHexdec_cases rd addr len s with ⟨-, h⟩ | ⟨-, h⟩
    · exact .inl ⟨_, s.sameControl_setReg .., rfl, h⟩
    · exact .inr (.inr ⟨_, .inr rfl, h⟩)
  case hexenc ra addr =>
    rcases execHexenc_cases ra addr s with ⟨-, h⟩ | ⟨-, h⟩
    · exact .inl ⟨_, s.sameControl_memWrite .., rfl, h⟩
    · exact .inr (.inr ⟨_, .inr rfl, h⟩)
  case trunc256 ra addr =>
    rcases execTrunc256_cases ra addr s with ⟨-, h⟩ | ⟨-, h⟩
    · exact .inl ⟨_, s.sameControl_memWrite .., rfl, h⟩
    · exact .inr (.inr ⟨_, .inr rfl, h⟩)
  case div rd ra rb =>
    have hz := divBlob_eq_none (s.reg ra) (s.reg rb)
    rcases execDiv_cases rd ra rb s with ⟨hd, h⟩ | ⟨q, r, hd, h⟩
    · exact .inr (.inl ⟨decide_eq_true (hz.mp hd), h⟩)
    · have hb : val (s.reg rb) ≠ 0 := fun h0 => nomatch hd.symm.trans (hz.mpr h0)
      exact .inl ⟨_, s.sameControl_setReg_rem .., decide_eq_false hb, h⟩
  case cmp => exact .inl ⟨_, s.sameControl_setOrder _, rfl, rfl⟩
  case isnull => exact .inl ⟨_, s.sameControl_setNull _, rfl, rfl⟩
  case bits => exact .inl ⟨_, s.sameControl_sr _, rfl, rfl⟩
  all_goals exact .inl ⟨_, s.sameControl_setReg .., rfl, rfl⟩

/-- No command sees or answers a host transaction, and none changes the configuration (rules R3, R63). -/
theorem exec_sameHost {i : Instr} {s t : State} (h : exec i s = .next t) : s.SameHost t := by
  rcases exec_cases i s with ⟨u, hu, -, he⟩ | ⟨-, he⟩ | ⟨c, -, he⟩ <;> rw [he] at h
  · rw [State.complete_eq_next] at h
    exact h ▸ hu.toSameHost.trans (u.sameControl_dz false).toSameHost
  · rw [State.signalDivZero_eq_next] at h
    exact h ▸ (s.sameControl_dz true).toSameHost
  · rw [State.raiseFault_eq_next] at h
    exact h ▸ s.sameHost_faultEntry c i.word0

/-! ## What the command port can do -/

/-- The words received become PEND, or are a whole command, which executes with PEND empty (rules R91, R92). -/
theorem assemble_eq_next (cmd : List Word) (s t : State) :
    assemble cmd s = .next t ↔
      (decode cmd = .incomplete ∧ t = { s with pend := cmd }) ∨
      (∃ i, decode cmd = .instr i [] ∧ exec i { s with pend := [] } = .next t) := by
  unfold assemble
  rcases hd : decode cmd with ⟨i, _ | ⟨w, ws⟩⟩ | _ | _ | _ <;> simp [eq_comm]

theorem assemble_sameHost {cmd : List Word} {s t : State} (h : assemble cmd s = .next t) : s.SameHost t := by
  rcases (assemble_eq_next cmd s t).mp h with ⟨-, rfl⟩ | ⟨i, -, he⟩
  · exact ⟨rfl, rfl, rfl⟩
  · have hp : s.SameHost { s with pend := [] } := ⟨rfl, rfl, rfl⟩
    exact hp.trans (exec_sameHost he)

/-- A word is dropped while FAULTED, is a word0 that fails its checks, or is assembled with PEND (rules R91 to
R93). -/
theorem receiveWord_cases (w : Word) (s : State) :
    (s.faulted = true ∧ receiveWord w s = .next s) ∨
    (∃ c, s.faulted = false ∧ s.pend = [] ∧ checkWord0 s.cfg w = .error c ∧
      receiveWord w s = .next (s.faultEntry c w)) ∨
    (s.faulted = false ∧ (s.pend = [] → ∃ op, checkWord0 s.cfg w = .ok op) ∧
      receiveWord w s = assemble (s.pend ++ [w]) s) := by
  cases hf : s.faulted with
  | true => exact .inl ⟨rfl, receiveWord_faulted w s hf⟩
  | false =>
    right
    cases hp : s.pend with
    | cons w0 ws => exact .inr ⟨rfl, nofun, hp ▸ receiveWord_extension w w0 ws s hf hp⟩
    | nil =>
      cases hc : checkWord0 s.cfg w with
      | error c => exact .inl ⟨c, rfl, rfl, rfl, receiveWord_refused w s c hf hp hc⟩
      | ok op => exact .inr ⟨rfl, fun _ => ⟨op, rfl⟩, receiveWord_accepted w s op hf hp hc⟩

theorem receiveWord_sameHost {w : Word} {s t : State} (h : receiveWord w s = .next t) : s.SameHost t := by
  rcases receiveWord_cases w s with ⟨-, he⟩ | ⟨c, -, -, -, he⟩ | ⟨-, -, he⟩ <;> rw [he] at h
  · exact Host.Outcome.next.inj h ▸ s.sameHost_refl
  · exact Host.Outcome.next.inj h ▸ s.sameHost_faultEntry c w
  · exact assemble_sameHost h

/-! ## What a host transaction can do -/

/-- A register write delivers a word, resets, or is ignored (rules R30, R34, R37). -/
theorem hostRegWrite_cases (r : HostReg) (data : Word) (s : State) :
    (r = .cmd ∧ hostRegWrite r data s = receiveWord data s) ∨
    (r = .ctrl ∧ data.getLsbD 0 = true ∧ hostRegWrite r data s = .next s.engineReset) ∨
    (r ≠ .cmd ∧ ¬(r = .ctrl ∧ data.getLsbD 0 = true) ∧ hostRegWrite r data s = .next s) := by
  cases r
  case cmd => exact .inl ⟨rfl, rfl⟩
  case ctrl =>
    cases hb : data.getLsbD 0 with
    | true => exact .inr (.inl ⟨rfl, rfl, if_pos hb⟩)
    | false => exact .inr (.inr ⟨nofun, nofun, if_neg (Bool.eq_false_iff.mp hb)⟩)
  all_goals exact .inr (.inr ⟨nofun, nofun, rfl⟩)

theorem hostRegWrite_sameHost {r : HostReg} {data : Word} {s t : State} (h : hostRegWrite r data s = .next t) :
    s.SameHost t := by
  rcases hostRegWrite_cases r data s with ⟨-, he⟩ | ⟨-, -, he⟩ | ⟨-, -, he⟩ <;> rw [he] at h
  · exact receiveWord_sameHost h
  · exact Host.Outcome.next.inj h ▸ s.sameHost_engineReset
  · exact Host.Outcome.next.inj h ▸ s.sameHost_refl

/-- A read that is not refused adds one answer and changes nothing else (rule R60). -/
theorem takeTxn_read {addr size : Nat} {s t : State} (h : takeTxn (.read addr size) s = .next t) :
    ∃ w, t = s.answerRead w := by
  unfold takeTxn at h
  cases ht : hostTarget s addr size with
  | reg r => exact ⟨_, (Host.Outcome.next.inj (by simpa only [ht] using h)).symm⟩
  | tbuf i => exact ⟨_, (Host.Outcome.next.inj (by simpa only [ht] using h)).symm⟩
  | none r => simp [ht] at h

/-- A write that is not refused is a register's write or stores in TBUF (rules R61, R62). -/
theorem takeTxn_write {addr size : Nat} {data : Word} {s t : State}
    (h : takeTxn (.write addr size data) s = .next t) :
    (∃ r, hostTarget s addr size = .reg r ∧ hostRegWrite r data s = .next t) ∨
    (∃ i, hostTarget s addr size = .tbuf i ∧ t = s.memWrite i (bytesOfWord size data)) := by
  unfold takeTxn at h
  cases ht : hostTarget s addr size with
  | reg r => exact .inl ⟨r, rfl, by simpa only [ht] using h⟩
  | tbuf i => exact .inr ⟨i, rfl, (Host.Outcome.next.inj (by simpa only [ht] using h)).symm⟩
  | none r => simp [ht] at h

theorem takeTxn_write_sameHost {addr size : Nat} {data : Word} {s t : State}
    (h : takeTxn (.write addr size data) s = .next t) : s.SameHost t := by
  rcases takeTxn_write h with ⟨r, -, hr⟩ | ⟨i, -, rfl⟩
  · exact hostRegWrite_sameHost hr
  · exact (s.sameControl_memWrite ..).toSameHost

/-- A transaction taken leaves the others and the configuration, and only adds to the answers (rules R3, R63, log
entry 2). -/
theorem takeTxn_frame {txn : HostTxn} {s t : State} (h : takeTxn txn s = .next t) :
    t.inbox = s.inbox ∧ t.cfg = s.cfg ∧ ∃ added, t.outbox = s.outbox ++ added := by
  cases txn with
  | read addr size =>
    obtain ⟨w, rfl⟩ := takeTxn_read h
    exact ⟨rfl, rfl, [w], rfl⟩
  | write addr size data =>
    have hs := takeTxn_write_sameHost h
    exact ⟨hs.inbox, hs.cfg, [], by rw [hs.outbox, List.append_nil]⟩

/-! ## What a step can do -/

/-- With no transaction waiting the engine is idle (rules R254, R280). -/
theorem step_of_inbox_nil {s : State} (h : s.inbox = []) : step s = .next s := by
  simp only [step, nextTxn, h]

/-- Otherwise the oldest one is taken (rule R63). -/
theorem step_of_inbox_cons {s : State} {txn : HostTxn} {ts : List HostTxn} (h : s.inbox = txn :: ts) :
    step s = takeTxn txn { s with inbox := ts } := by
  simp only [step, nextTxn, h]

end Sys2Proof.Machine

open Sys2Proof.Machine

/-- Settles O39: an idle step changes nothing, and any other is `takeTxn` of the oldest transaction from the state
without it, by `takeTxn_frame`. -/
theorem stepAnswersInArrivalOrder : Obligations.StepAnswersInArrivalOrder := by
  intro s t h
  cases hi : s.inbox with
  | nil =>
    rw [step_of_inbox_nil hi] at h
    obtain rfl := Host.Outcome.next.inj h
    exact ⟨hi, rfl, [], (List.append_nil _).symm⟩
  | cons txn ts =>
    rw [step_of_inbox_cons hi] at h
    exact takeTxn_frame h

end

section
/-!
What a host reads in the register block: the address map at each register's offset, the step that answers such a read
with `hostRegRead`, and the words of ID and STATUS.
-/

namespace Sys2Proof.Machine

/-! ## The step of a register read -/

/-- The registers stand below the reserved offsets (rules R30, R38). -/
theorem hostRegAt_lt {offset : Nat} {r : HostReg} (h : hostRegAt offset = some r) : offset < 0x020 := by
  by_contra hge
  have hnone : hostRegAt offset = none := by
    unfold hostRegAt
    repeat rw [if_neg (by omega)]
  exact nomatch hnone.symm.trans h

/-- A 4-byte access at a register's offset reaches it, wherever the window stands (rules R30, R61). -/
theorem hostTarget_reg (s : State) {offset : Nat} {r : HostReg} (h : hostRegAt offset = some r) :
    hostTarget s (s.cfg.hostBase + offset) 4 = .reg r := by
  have hlt : offset < 0x020 := hostRegAt_lt h
  simp [hostTarget, hlt, h]

/-- No register shows the transactions still to be answered (rule R63). -/
@[simp] theorem hostRegRead_inbox (r : HostReg) (s : State) (ts : List HostTxn) :
    hostRegRead r { s with inbox := ts } = hostRegRead r s := by
  cases r <;> rfl

/-- A 4-byte read at a register's offset answers what that register reads as, and changes nothing else (rules R30,
R60). -/
theorem step_regRead {s : State} {ts : List HostTxn} {offset : Nat} {r : HostReg}
    (h : s.inbox = .read (s.cfg.hostBase + offset) 4 :: ts) (hr : hostRegAt offset = some r) :
    step s = .next { s with inbox := ts, outbox := s.outbox ++ [hostRegRead r s] } := by
  have ht : hostTarget { s with inbox := ts } (s.cfg.hostBase + offset) 4 = .reg r := hostTarget_reg _ hr
  rw [step_of_inbox_cons h]
  simp only [takeTxn, ht, State.answerRead, hostRegRead_inbox]

/-! ## The word of ID -/

theorem idWord_w160 {c : Config} (h : c.width = .w160) :
    idWord c = bif c.narrowBitwise then 0x100100A0#32 else 0x100000A0#32 := by
  simp only [idWord, Config.classEnabled, h]
  cases c.narrowBitwise <;> decide

theorem idWord_w256 {c : Config} (h : c.width = .w256) :
    idWord c = bif c.narrowBitwise then 0x10010100#32 else 0x10000100#32 := by
  simp only [idWord, Config.classEnabled, h]
  cases c.narrowBitwise <;> decide

/-- NARROW_BITWISE does not show at 512 bits, where every class is enabled (rules R31, R230). -/
theorem idWord_w512 {c : Config} (h : c.width = .w512) : idWord c = 0x10070200#32 := by
  simp only [idWord, Config.classEnabled, h]
  cases c.narrowBitwise <;> decide

/-! ## The bits of STATUS -/

/-- Bits 0 to 9 of STATUS, bit 0 first (rule R33). -/
def statusBits (s : State) : List Bool :=
  [s.eq, s.lt, s.gt, s.z, s.dz, false, false, false, s.faulted, !s.pend.isEmpty]

theorem bitAt_eq_toNat_mul (b : Bool) (k : Nat) : bitAt b k = b.toNat * 2 ^ k := by
  cases b <;> simp [bitAt]

/-- STATUS is those bits, zero-extended to the word. -/
theorem statusWord_eq_ofBoolListLE (s : State) :
    statusWord s = (BitVec.ofBoolListLE (statusBits s)).setWidth 32 := by
  apply BitVec.eq_of_toNat_eq
  simp only [statusWord, statusBits, bitAt_eq_toNat_mul, BitVec.ofBoolListLE, BitVec.toNat_setWidth,
    BitVec.toNat_ofNat, BitVec.toNat_concat]
  congr 1
  simp only [Bool.toNat_false, List.length_nil, BitVec.toNat_of_zero_length]
  ring

theorem statusWord_getLsbD (s : State) (k : Nat) : (statusWord s).getLsbD k = (statusBits s).getD k false := by
  have hlen : (statusBits s).length = 10 := rfl
  rw [statusWord_eq_ofBoolListLE, BitVec.getLsbD_setWidth, BitVec.getLsbD_ofBoolListLE]
  by_cases hk : k < 32
  · simp [hk]
  · rw [List.getD_eq_default _ _ (by omega), Bool.and_false]

/-- The bits of STATUS between DZ and FAULT and above PEND are 0 (rule R33). -/
theorem statusBits_getD_unused (s : State) {k : Nat} (h : (5 ≤ k ∧ k ≤ 7) ∨ 10 ≤ k) :
    (statusBits s).getD k false = false := by
  rcases h with ⟨hlo, hhi⟩ | hk
  · obtain rfl | rfl | rfl : k = 5 ∨ k = 6 ∨ k = 7 := by omega
    all_goals rfl
  · exact List.getD_eq_default _ _ hk

end Sys2Proof.Machine

open Sys2Proof.Machine

/-- Settles O40: the read answers `idWord`, whose fields are fixed by the width and, on the narrow ones, by
NARROW_BITWISE. -/
theorem idRegisterNamesTheInstance : Obligations.IdRegisterNamesTheInstance := by
  intro s ts h
  rw [step_regRead h rfl]
  cases hw : s.cfg.width with
  | w160 =>
    rw [hostRegRead, idWord_w160 hw]
    cases s.cfg.narrowBitwise <;> rfl
  | w256 =>
    rw [hostRegRead, idWord_w256 hw]
    cases s.cfg.narrowBitwise <;> rfl
  | w512 => rw [hostRegRead, idWord_w512 hw]

/-- Settles O41: the read answers `statusWord`, whose bits are those of `statusBits`. -/
theorem statusShowsFlagsFaultAndPend : Obligations.StatusShowsFlagsFaultAndPend := by
  refine ⟨fun _ => rfl, fun s ts h => ⟨statusWord s, step_regRead h rfl, ?_⟩⟩
  simp only [statusWord_getLsbD]
  exact ⟨rfl, rfl, rfl, rfl, rfl, rfl, rfl, fun _ => statusBits_getD_unused s⟩

/-- Settles O42: each offset is a register's, whose `hostRegRead` is the value named, so the step is `step_regRead`; SR
is at most N by the invariant. -/
theorem hostRegistersReadTheirValues : Obligations.HostRegistersReadTheirValues := by
  refine ⟨fun _ => ⟨rfl, rfl, rfl⟩, fun s ts offset w hinv h hw => ?_⟩
  obtain ⟨r, hr, rfl⟩ : ∃ r, hostRegAt offset = some r ∧ w = hostRegRead r s := by
    rcases hw with ⟨rfl, rfl⟩ | ⟨rfl, rfl⟩ | ⟨rfl, rfl⟩ | ⟨rfl, rfl⟩ | ⟨rfl, rfl⟩ | ⟨rfl, rfl⟩
    · exact ⟨.tbufsz, rfl, rfl⟩
    · exact ⟨.cmd, rfl, rfl⟩
    · exact ⟨.cause, rfl, by simp only [hostRegRead]; cases s.cause <;> rfl⟩
    · exact ⟨.fword, rfl, rfl⟩
    · exact ⟨.sr, rfl, rfl⟩
    · exact ⟨.ctrl, rfl, rfl⟩
  refine ⟨step_regRead h hr, ?_⟩
  rintro rfl
  obtain rfl : .sr = r := Option.some.inj hr
  exact hinv.sr_le

end

section
/-!
Raw bytes against values: byte j of `raw` is a limb's byte and a byte of `val`, `fromRaw` sums its bytes, and the two
functions undo each other (rules R54, R55).
-/

namespace Sys2Proof.Machine

/-! ## One limb and its four bytes -/

theorem limbOfBytes_toNat (b0 b1 b2 b3 : Byte) :
    (limbOfBytes b0 b1 b2 b3).toNat = b0.toNat + b1.toNat * 2 ^ 8 + b2.toNat * 2 ^ 16 + b3.toNat * 2 ^ 24 := by
  rw [limbOfBytes, BitVec.toNat_ofNat, Nat.mod_eq_of_lt (by omega)]

theorem limbBytes_limbOfBytes (b0 b1 b2 b3 : Byte) : limbBytes (limbOfBytes b0 b1 b2 b3) = [b0, b1, b2, b3] := by
  simp only [limbBytes, limbOfBytes_toNat, List.cons.injEq, and_true, ← BitVec.toNat_inj, BitVec.toNat_ofNat]
  omega

theorem fromRaw_limbBytes_append (l : Word) (bs : List Byte) : fromRaw (limbBytes l ++ bs) = l :: fromRaw bs := by
  simp only [limbBytes, List.cons_append, List.nil_append, fromRaw, List.cons.injEq, and_true,
    ← BitVec.toNat_inj, limbOfBytes_toNat, BitVec.toNat_ofNat]
  omega

/-! ## Each function undoes the other -/

/-- A list of 4n bytes is empty, or four bytes and such a list: the recursion of `fromRaw` on whole limbs. -/
theorem wholeLimbs_induction {motive : ∀ b : List Byte, b.length % 4 = 0 → Prop} (nil : motive [] rfl)
    (limb : ∀ b0 b1 b2 b3 bs hbs h, motive bs hbs → motive (b0 :: b1 :: b2 :: b3 :: bs) h) (b : List Byte)
    (h : b.length % 4 = 0) : motive b h := by
  induction b using fromRaw.induct with
  | case1 b0 b1 b2 b3 bs ih =>
    have hbs : bs.length % 4 = 0 := by simp only [List.length_cons] at h; omega
    exact limb b0 b1 b2 b3 bs hbs h (ih hbs)
  | case2 b hshort =>
    match b, hshort with
    | [], _ => exact nil
    | b0 :: b1 :: b2 :: b3 :: bs, hshort => exact absurd rfl (hshort b0 b1 b2 b3 bs)

theorem fromRaw_raw (v : Blob) : fromRaw (raw v) = v := by
  induction v with
  | nil => rfl
  | cons l ls ih => rw [raw, fromRaw_limbBytes_append, ih]

theorem raw_fromRaw (b : List Byte) (h : b.length % 4 = 0) : raw (fromRaw b) = b := by
  induction b, h using wholeLimbs_induction with
  | nil => rfl
  | limb b0 b1 b2 b3 bs _ _ ih => rw [fromRaw, raw, limbBytes_limbOfBytes, ih]; rfl

/-! ## The value of the bytes -/

theorem sumBytes_succ (n : Nat) (b : Nat → Byte) :
    Claims.sumBytes (n + 1) b = (b 0).toNat + 2 ^ 8 * Claims.sumBytes n fun j => b (j + 1) := by
  simp only [Claims.sumBytes, Finset.sum_range_succ', Finset.mul_sum]
  rw [Nat.add_comm, Nat.mul_zero, Nat.pow_zero, Nat.mul_one]
  congr 1
  exact Finset.sum_congr rfl fun j _ => by rw [Nat.mul_add, Nat.pow_add]; ring

theorem val_fromRaw (b : List Byte) (h : b.length % 4 = 0) :
    val (fromRaw b) = Claims.sumBytes b.length fun j => b.getD j 0#8 := by
  induction b, h using wholeLimbs_induction with
  | nil => rfl
  | limb b0 b1 b2 b3 bs _ _ ih =>
    simp only [fromRaw, val_cons, limbOfBytes_toNat, ih, List.length_cons, sumBytes_succ, List.getD_cons_zero,
      List.getD_cons_succ]
    ring

/-! ## The bytes of a value -/

/-- Byte j of `raw v` is byte j mod 4 of limb j div 4 (rule R54). -/
theorem raw_getElem? : ∀ (v : Blob) (j : Nat),
    (raw v)[j]? = v[j / 4]?.map fun l => BitVec.ofNat 8 (l.toNat / 2 ^ (8 * (j % 4)))
  | [], j => by simp [raw]
  | l :: ls, 0 => by simp [raw, limbBytes]
  | l :: ls, 1 => rfl
  | l :: ls, 2 => rfl
  | l :: ls, 3 => rfl
  | l :: ls, j + 4 => by simp [raw, limbBytes, raw_getElem? ls j]

/-- Limb k of a value is its bits [32k+31:32k] (rule R10). -/
theorem toNat_eq_val_div {v : Blob} {k : Nat} {l : Word} (h : v[k]? = some l) :
    l.toNat = val v / 2 ^ (32 * k) % 2 ^ 32 := by
  induction v generalizing k with
  | nil => exact nomatch h
  | cons a as ih =>
    cases k with
    | zero =>
      obtain rfl := Option.some.inj h
      simp only [val_cons]
      omega
    | succ k =>
      rw [ih h, val_cons, Nat.mul_add, Nat.mul_one, Nat.add_comm (32 * k), Nat.pow_add, ← Nat.div_div_eq_div_mul]
      congr 2
      omega

/-- Byte r of a 32-bit word of a number is that byte of the number. -/
theorem ofNat_mod_word_div_byte (x : Nat) {r : Nat} (hr : r < 4) :
    BitVec.ofNat 8 (x % 2 ^ 32 / 2 ^ (8 * r)) = BitVec.ofNat 8 (x / 2 ^ (8 * r)) := by
  ext i hi
  have hbit : 8 * r + i < 32 := by omega
  simp only [← BitVec.getLsbD_eq_getElem, BitVec.getLsbD_ofNat, Nat.testBit_div_two_pow, Nat.testBit_mod_two_pow,
    Nat.add_comm i, hbit, decide_true, Bool.true_and]

/-- Byte j of `raw v` is bits [8j+7:8j] of the value (rule R54): its limb is 32 bits of the value. -/
theorem raw_getElem?_eq_val_byte (v : Blob) {j : Nat} (h : j < 4 * v.length) :
    (raw v)[j]? = some (BitVec.ofNat 8 (val v / 2 ^ (8 * j))) := by
  have hk : v[j / 4]? = some v[j / 4] := List.getElem?_eq_getElem (by omega)
  have hj : 8 * j = 32 * (j / 4) + 8 * (j % 4) := by omega
  rw [raw_getElem?, hk, Option.map_some, toNat_eq_val_div hk, ofNat_mod_word_div_byte _ (Nat.mod_lt j (by decide)),
    Nat.div_div_eq_div_mul, ← Nat.pow_add, ← hj]

end Sys2Proof.Machine

open Sys2Proof.Machine

/-- Settles O19: byte j is byte j mod 4 of limb j div 4, which is 32 bits of the value; `fromRaw` and the inverses go
limb by limb. -/
theorem rawBytesSpellTheValue : Obligations.RawBytesSpellTheValue :=
  ⟨fun v j h => ⟨raw_getElem?_eq_val_byte v h, raw_getElem? v j⟩, val_fromRaw, fromRaw_raw, raw_fromRaw⟩

end

section
/-!
What a host write elsewhere than CMD and CTRL.SRST can change: it stores in TBUF or is ignored (rule R60). The address
map is inverted once, by the offset of each register.
-/

namespace Sys2Proof.Machine

/-- The offset of a host register (rule R30). -/
def HostReg.offset : HostReg → Nat
  | .id => 0x000
  | .tbufsz => 0x004
  | .cmd => 0x008
  | .status => 0x00C
  | .cause => 0x010
  | .fword => 0x014
  | .sr => 0x018
  | .ctrl => 0x01C

/-- Each register stands at its offset and at no other. -/
theorem hostRegAt_eq_some {offset : Nat} {r : HostReg} : hostRegAt offset = some r ↔ offset = r.offset := by
  constructor
  · intro h
    unfold hostRegAt at h
    split_ifs at h
    all_goals
      obtain rfl := Option.some.inj h
      assumption
  · rintro rfl
    cases r <;> rfl

/-- Only the address of a register reaches it (rules R30, R61). -/
theorem addr_of_hostTarget_reg {s : State} {addr size : Nat} {r : HostReg} (h : hostTarget s addr size = .reg r) :
    addr = s.cfg.hostBase + r.offset := by
  rcases hostTarget_cases s addr size with ⟨-, h'⟩ | ⟨q, hbase, -, hq, -, h'⟩ | ⟨-, -, -, h'⟩ | ⟨-, -, h'⟩ |
      ⟨-, -, h'⟩ | ⟨-, -, h'⟩ <;> rw [h'] at h
  case inr.inl =>
    obtain rfl := HostTarget.reg.inj h
    have hoff := hostRegAt_eq_some.mp hq
    omega
  all_goals exact nomatch h

/-- A write that is none to CMD and none to CTRL with SRST = 1 stores in TBUF or is ignored (rule R60). -/
theorem takeTxn_write_elsewhere {addr size : Nat} {data : Word} {s t : State}
    (h : takeTxn (.write addr size data) s = .next t) (hcmd : addr ≠ s.cfg.hostBase + 0x008)
    (hctrl : ¬(addr = s.cfg.hostBase + 0x01C ∧ data.getLsbD 0 = true)) :
    t = s ∨ ∃ i, t = s.memWrite i (bytesOfWord size data) := by
  rcases takeTxn_write h with ⟨r, hr, hw⟩ | ⟨i, -, ht⟩
  · have haddr := addr_of_hostTarget_reg hr
    rcases hostRegWrite_cases r data s with ⟨rfl, -⟩ | ⟨rfl, hsrst, -⟩ | ⟨-, -, he⟩
    · exact absurd haddr hcmd
    · exact absurd ⟨haddr, hsrst⟩ hctrl
    · rw [he] at hw
      exact .inl (Host.Outcome.next.inj hw).symm
  · exact .inr ⟨i, ht⟩

end Sys2Proof.Machine

open Sys2Proof.Machine

/-- Settles O43: the step takes the oldest transaction; a read adds one answer by `takeTxn_read`, and such a write
stores in TBUF or does nothing by `takeTxn_write_elsewhere`. -/
theorem hostReadsHaveNoSideEffect : Obligations.HostReadsHaveNoSideEffect := by
  constructor
  · intro s t addr size ts hi h
    rw [step_of_inbox_cons hi] at h
    obtain ⟨w, rfl⟩ := takeTxn_read h
    rfl
  · intro s t addr size data ts hi hcmd hctrl h
    rw [step_of_inbox_cons hi] at h
    obtain rfl | ⟨i, rfl⟩ := takeTxn_write_elsewhere h hcmd hctrl <;> rfl

end

section
/-!
The checks of word0 on its arrival (rules R87 to R91): which opcode values select a row of rule R86, which classes an
engine enables, which bits of word0 are reserved, and the step in which a word0 is refused.
-/

namespace Sys2Proof

/-! ## The opcode of word0 -/

theorem opcOf_eq_div (w : Word) : opcOf w = w.toNat / 2 ^ 24 := by
  have hlt := w.isLt
  simp only [opcOf, slice]
  omega

/-- Every opcode value below 256 is of a row of rule R86 or of a range of rule R88. -/
theorem Op.exists_code_eq {n : Nat} (hn : n < 256) (h : ¬Claims.illegalOpc n) : ∃ op : Op, op.code = n := by
  have hmem : n ∈ Op.all.map Op.code := by
    simp only [Op.all, Op.code, List.map_cons, List.map_nil, List.mem_cons, List.not_mem_nil]
    omega
  obtain ⟨op, -, hop⟩ := List.mem_map.mp hmem
  exact ⟨op, hop⟩

/-- … and never of both. -/
theorem Op.code_not_illegal (op : Op) : ¬Claims.illegalOpc op.code := by
  cases op <;> decide

/-- A word0 selects no row exactly when its opcode is one of rule R88. -/
theorem Op.ofWord0_eq_none_iff (w : Word) : Op.ofWord0 w = none ↔ Claims.illegalOpc (w.toNat / 2 ^ 24) := by
  rw [← opcOf_eq_div]
  constructor
  · intro hnone
    by_contra hlegal
    have hlt : opcOf w < 256 := Nat.mod_lt _ (by decide)
    obtain ⟨op, hop⟩ := Op.exists_code_eq hlt hlegal
    exact nomatch hnone.symm.trans (Op.ofWord0_of_opcOf op w hop.symm)
  · intro hill
    cases hw : Op.ofWord0 w with
    | none => rfl
    | some op => exact absurd (Op.opcOf_of_ofWord0 op w hw ▸ hill) op.code_not_illegal

/-! ## The class of an opcode -/

/-! The opcode ranges of the classes (rules R85, R86). -/

theorem Op.cls_eq_basic_iff (op : Op) : op.cls = .basic ↔ 0x01 ≤ op.code ∧ op.code ≤ 0x09 := by
  cases op <;> decide

theorem Op.cls_eq_bitwise_iff (op : Op) : op.cls = .bitwise ↔ 0x10 ≤ op.code ∧ op.code ≤ 0x15 := by
  cases op <;> decide

theorem Op.cls_eq_arith_iff (op : Op) : op.cls = .arith ↔ 0x20 ≤ op.code ∧ op.code ≤ 0x29 := by
  cases op <;> decide

theorem Op.cls_eq_trunc_iff (op : Op) : op.cls = .trunc ↔ op.code = 0x30 := by
  cases op <;> decide

/-- The table of rule R230, class by class. -/
theorem Config.classEnabled_iff (c : Config) (k : OpClass) : c.classEnabled k = true ↔
    k = .basic ∨ (k = .bitwise ∧ (c.width = .w512 ∨ c.narrowBitwise = true)) ∨ (k = .arith ∧ c.width = .w512) ∨
      (k = .trunc ∧ c.width = .w512) := by
  cases k <;> simp [Config.classEnabled]

/-! ## The reserved bits of word0 -/

/-- A field of word0 that lies in the mask of its opcode and is not 0 sets a reserved bit (rules R87, R91). -/
theorem Op.reservedSet_of_field {op : Op} {w : Word} {lo k : Nat} (hle : lo + k ≤ 24)
    (hmask : ∀ j < k, op.mask.getLsbD (lo + j) = true) (hw : w.toNat / 2 ^ lo % 2 ^ k ≠ 0) :
    op.reservedSet w = true := by
  obtain ⟨j, hj⟩ := Nat.exists_testBit_of_ne_zero hw
  simp only [Nat.testBit_mod_two_pow, Nat.testBit_div_two_pow, Bool.and_eq_true, decide_eq_true_eq] at hj
  obtain ⟨hjk, hbit⟩ := hj
  have hlow : ∀ i < 24, (0x00FFFFFF#32).getLsbD i = true := by decide
  rw [Op.reservedSet, bne_iff_ne]
  intro hzero
  have hset : (w &&& op.mask &&& 0x00FFFFFF#32).getLsbD (lo + j) = true := by
    rw [BitVec.getLsbD_and, BitVec.getLsbD_and, hmask j hjk, hlow (lo + j) (by omega), Bool.and_true, Bool.and_true]
    exact Nat.add_comm j lo ▸ hbit
  simp [hzero] at hset

/-! The mask of an opcode holds RES and the register fields its command does not use (rules R86, R87). -/

theorem Op.mask_res (op : Op) : ∀ j < 12, op.mask.getLsbD (0 + j) = true := by
  cases op <;> decide

theorem Op.mask_rd {op : Op} (h : Claims.usesRd op = false) : ∀ j < 4, op.mask.getLsbD (20 + j) = true := by
  revert h; cases op <;> decide

theorem Op.mask_ra {op : Op} (h : Claims.usesRa op = false) : ∀ j < 4, op.mask.getLsbD (16 + j) = true := by
  revert h; cases op <;> decide

theorem Op.mask_rb {op : Op} (h : Claims.usesRb op = false) : ∀ j < 4, op.mask.getLsbD (12 + j) = true := by
  revert h; cases op <;> decide

end Sys2Proof

namespace Sys2Proof.Machine

/-! ## What the checks answer -/

theorem checkWord0_illegal {c : Config} {w : Word} (h : Op.ofWord0 w = none) :
    checkWord0 c w = .error .illegalOpcode := by
  simp only [checkWord0, h]

theorem checkWord0_disabled {c : Config} {w : Word} {op : Op} (h : Op.ofWord0 w = some op)
    (hc : c.classEnabled op.cls = false) : checkWord0 c w = .error .classDisabled := by
  simp only [checkWord0, h, hc, if_true]

theorem checkWord0_reserved {c : Config} {w : Word} {op : Op} (h : Op.ofWord0 w = some op)
    (hc : c.classEnabled op.cls = true) (hr : op.reservedSet w = true) : checkWord0 c w = .error .rsvdField := by
  simp [checkWord0, h, hc, hr]

/-! ## The step of a CMD write -/

/-- The step that takes a CMD write is the command port receiving its word (rules R30, R34). -/
theorem step_of_nextWord {s : State} {w : Word} {ts : List HostTxn} (h : Claims.NextWord s w ts) :
    step s = receiveWord w { s with inbox := ts } :=
  step_cmdWrite s w ts h

/-- A word0 that fails a check on arrival is the fault entry, and the transaction is taken (rules R91, R242). -/
theorem step_of_refused_word0 {s : State} {w : Word} {ts : List HostTxn} {c : Cause} (hready : Claims.Ready s)
    (h : Claims.NextWord s w ts) (hc : checkWord0 s.cfg w = .error c) :
    step s = .next (Claims.faultedOn s c w ts) := by
  obtain ⟨hf, hp⟩ := hready
  rw [step_of_nextWord h]
  exact receiveWord_refused w { s with inbox := ts } c hf hp hc

end Sys2Proof.Machine

open Sys2Proof Sys2Proof.Machine

/-- Settles O3: the decoder run on each word sequence. -/
theorem encodingExamplesDecode : Obligations.EncodingExamplesDecode := by
  unfold Obligations.EncodingExamplesDecode
  decide

/-- Settles O5: the ranges counted; an opcode in them selects no row, so word0 fails its first check. -/
theorem illegalOpcodeFaultsOnArrival : Obligations.IllegalOpcodeFaultsOnArrival := by
  refine ⟨by decide +kernel, fun s w ts hready h hill => ?_⟩
  exact step_of_refused_word0 hready h (checkWord0_illegal ((Op.ofWord0_eq_none_iff w).mpr hill))

/-- Settles O6: the classes are opcode ranges, and rule R230 enables them by width; at another width each of the
disabled ranges selects a row whose class is not enabled, so word0 fails its second check. -/
theorem disabledClassFaultsOnArrival : Obligations.DisabledClassFaultsOnArrival := by
  constructor
  · intro c i
    rw [Instr.wellFormed, Config.classEnabled_iff, Op.cls_eq_basic_iff, Op.cls_eq_bitwise_iff, Op.cls_eq_arith_iff,
      Op.cls_eq_trunc_iff, and_assoc, and_assoc]
  · intro s w ts hready h hwidth hrange
    cases hop : Op.ofWord0 w with
    | none =>
      have hill := (Op.ofWord0_eq_none_iff w).mp hop
      omega
    | some op =>
      have hcode := Op.opcOf_of_ofWord0 op w hop
      rw [opcOf_eq_div] at hcode
      have hdis : s.cfg.classEnabled op.cls = false := by
        rw [hcode, ← and_assoc, ← Op.cls_eq_bitwise_iff, ← Op.cls_eq_arith_iff, ← Op.cls_eq_trunc_iff] at hrange
        rcases hrange with ⟨hk, hnarrow⟩ | hk | hk <;> rw [hk] <;> simp [Config.classEnabled, *]
      exact step_of_refused_word0 hready h (checkWord0_disabled hop hdis)

/-- Settles O7: each of the four fields lies in the mask of an opcode that does not use it, so a bit set in it is a
reserved one, and word0 fails its third check. -/
theorem reservedFieldFaultsOnArrival : Obligations.ReservedFieldFaultsOnArrival := by
  intro s w ts op hready h hcode hen hfield
  have hop : Op.ofWord0 w = some op := Op.ofWord0_of_opcOf op w ((opcOf_eq_div w).trans hcode)
  have hres : op.reservedSet w = true := by
    rcases hfield with hw | ⟨hu, hw⟩ | ⟨hu, hw⟩ | ⟨hu, hw⟩
    · exact Op.reservedSet_of_field (by decide) op.mask_res (by rwa [Nat.pow_zero, Nat.div_one])
    · exact Op.reservedSet_of_field (by decide) (Op.mask_rd hu) hw
    · exact Op.reservedSet_of_field (by decide) (Op.mask_ra hu) hw
    · exact Op.reservedSet_of_field (by decide) (Op.mask_rb hu) hw
  exact step_of_refused_word0 hready h (checkWord0_reserved hop hen hres)

end

section
/-!
The words of a command beyond word0 (rules R80, R92, R93): how many of them the decoder takes, and the step in which
the command port receives one.
-/

namespace Sys2Proof

/-- The words an opcode asks for, after a sound word0, are a command and leave nothing over (rules R80, R92). -/
theorem decode_of_length_eq {w0 : Word} {rest : List Word} {op : Op} (hop : Op.ofWord0 w0 = some op)
    (hres : op.reservedSet w0 = false) (hlen : rest.length + 1 = op.words) :
    ∃ i, decode (w0 :: rest) = .instr i [] := by
  simp only [decode, hop, hres, Bool.false_eq_true, if_false]
  cases hf : op.format with
  | r =>
    have hwords : op.words = 1 := congrArg Format.words hf
    obtain rfl := List.length_eq_zero_iff.mp (by omega : rest.length = 0)
    exact ⟨_, rfl⟩
  | rx =>
    have hwords : op.words = 2 := congrArg Format.words hf
    obtain ⟨x1, rfl⟩ := List.length_eq_one_iff.mp (by omega : rest.length = 1)
    exact ⟨_, rfl⟩
  | rxx =>
    have hwords : op.words = 3 := congrArg Format.words hf
    obtain ⟨x1, x2, rfl⟩ := List.length_eq_two.mp (by omega : rest.length = 2)
    exact ⟨_, rfl⟩

/-- Fewer words are no command yet (rule R92). -/
theorem decode_of_length_lt {w0 : Word} {rest : List Word} {op : Op} (hop : Op.ofWord0 w0 = some op)
    (hres : op.reservedSet w0 = false) (hlen : rest.length + 1 < op.words) :
    decode (w0 :: rest) = .incomplete := by
  simp only [decode, hop, hres, Bool.false_eq_true, if_false]
  cases hf : op.format with
  | r =>
    have hwords : op.words = 1 := congrArg Format.words hf
    omega
  | rx =>
    have hwords : op.words = 2 := congrArg Format.words hf
    obtain rfl := List.length_eq_zero_iff.mp (by omega : rest.length = 0)
    rfl
  | rxx =>
    have hwords : op.words = 3 := congrArg Format.words hf
    match rest with
    | [] | [_] => rfl
    | _ :: _ :: _ => simp only [List.length_cons] at hlen; omega

end Sys2Proof

namespace Sys2Proof.Machine

/-- A word0 that passes its checks selects a row of an enabled class and has no reserved bit set (rule R91). -/
theorem of_checkWord0_eq_ok {c : Config} {w : Word} {op : Op} (h : checkWord0 c w = .ok op) :
    Op.ofWord0 w = some op ∧ c.classEnabled op.cls = true ∧ op.reservedSet w = false := by
  rcases checkWord0_cases c w with ⟨-, h'⟩ | ⟨_, -, -, h'⟩ | ⟨_, -, -, -, h'⟩ | ⟨op', hop, hen, hres, h'⟩ <;>
    rw [h'] at h
  case inr.inr.inr =>
    obtain rfl := Except.ok.inj h
    exact ⟨hop, hen, hres⟩
  all_goals exact nomatch h

/-- A word received while PEND holds words is assembled with them (rule R92). -/
theorem step_of_extension_word {s : State} {w w0 : Word} {ws : List Word} {ts : List HostTxn}
    (hf : s.faulted = false) (hp : s.pend = w0 :: ws) (h : Claims.NextWord s w ts) :
    step s = assemble (w0 :: ws ++ [w]) { s with inbox := ts } := by
  rw [step_of_nextWord h, receiveWord_extension w w0 ws { s with inbox := ts } hf hp]
  exact hp ▸ rfl

theorem assemble_instr {cmd : List Word} {i : Instr} (s : State) (h : decode cmd = .instr i []) :
    assemble cmd s = exec i { s with pend := [] } := by
  simp only [assemble, h]

theorem assemble_incomplete {cmd : List Word} (s : State) (h : decode cmd = .incomplete) :
    assemble cmd s = .next { s with pend := cmd } := by
  simp only [assemble, h]

end Sys2Proof.Machine

open Sys2Proof Sys2Proof.Machine

/-- Settles O9: by the invariant the word0 in PEND passed its checks, so the count of the words alone decides between a
command and a longer PEND. -/
theorem extensionWordIsAppended : Obligations.ExtensionWordIsAppended := by
  intro s w w0 ws ts op hinv hf hp hcode h
  obtain ⟨op', hok, -⟩ := hinv.pend_ok w0 ws hp
  obtain ⟨hop', -, hres⟩ := of_checkWord0_eq_ok hok
  have hop : Op.ofWord0 w0 = some op := Op.ofWord0_of_opcOf op w0 ((opcOf_eq_div w0).trans hcode)
  obtain rfl : op' = op := Option.some.inj (hop'.symm.trans hop)
  have hcount : (ws ++ [w]).length + 1 = ws.length + 2 := by simp
  rw [step_of_extension_word hf hp h]
  constructor
  · intro hlen
    obtain ⟨i, hi⟩ := decode_of_length_eq hop hres (hcount.trans hlen)
    exact ⟨i, hi, assemble_instr _ hi⟩
  · intro hlen
    exact assemble_incomplete _ (decode_of_length_lt hop hres (hcount ▸ hlen))

/-- Settles O11: the command port drops the word. -/
theorem faultedEngineDropsWords : Obligations.FaultedEngineDropsWords := by
  intro s w ts hf h
  rw [step_of_nextWord h]
  exact receiveWord_faulted w { s with inbox := ts } hf

/-- Settles O13: of the three ends of `exec_cases`, completing clears DZ and is no division by zero, a division by zero
sets DZ, and a fault leaves it. -/
theorem everyCommandWritesDz : Obligations.EveryCommandWritesDz := by
  intro i s hf
  rcases exec_cases i s with ⟨u, hu, hz, h⟩ | ⟨hz, h⟩ | ⟨c, -, h⟩
  · have hfu : u.faulted = false := hu.faulted.trans hf
    exact ⟨_, h, fun _ => hz.symm, fun hft => absurd (hfu.symm.trans hft) (by decide)⟩
  · exact ⟨_, h, fun _ => hz.symm, fun hft => absurd (hf.symm.trans hft) (by decide)⟩
  · exact ⟨_, h, nofun, fun _ => rfl⟩

end

section
/-!
Word0 of a command as the rules write it (rules R81, R86): its opcode and its register fields, each shifted to its
place.
-/

namespace Sys2Proof

open Claims

@[simp] theorem atRd_zero : atRd 0 = 0#32 := rfl
@[simp] theorem atRa_zero : atRa 0 = 0#32 := rfl
@[simp] theorem atRb_zero : atRb 0 = 0#32 := rfl

theorem ofNat_mul_two_pow (x n : Nat) : BitVec.ofNat 32 (x * 2 ^ n) = BitVec.ofNat 32 x <<< n :=
  BitVec.eq_of_toNat_eq (by simp [BitVec.toNat_shiftLeft, Nat.shiftLeft_eq])

/-- The fields of word0 do not overlap, so their sum is their bitwise OR (rule R81). -/
theorem packWord0_eq_or (op : Op) (rd ra rb : Reg) :
    packWord0 op rd ra rb = BitVec.ofNat 32 (op.code * 2 ^ 24) ||| atRd rd ||| atRa ra ||| atRb rb := by
  have hd := rd.isLt
  have ha := ra.isLt
  have hb := rb.isLt
  have hor : op.code * 2 ^ 24 + rd.val * 2 ^ 20 + ra.val * 2 ^ 16 + rb.val * 2 ^ 12 =
      op.code * 2 ^ 24 ||| (rd.val * 2 ^ 20 ||| (ra.val * 2 ^ 16 ||| rb.val * 2 ^ 12)) := by
    simp only [Nat.mul_comm _ (2 ^ _)]
    rw [← Nat.two_pow_add_eq_or_of_lt (i := 16) (by omega), ← Nat.two_pow_add_eq_or_of_lt (i := 20) (by omega),
      ← Nat.two_pow_add_eq_or_of_lt (i := 24) (by omega)]
    omega
  rw [packWord0, hor]
  simp only [BitVec.ofNat_or, ofNat_mul_two_pow, atRd, atRa, atRb, BitVec.or_assoc]

/-! Word0 of a command that uses only some of the register fields. -/

theorem packWord0_rd (op : Op) (rd : Reg) : packWord0 op rd 0 0 = BitVec.ofNat 32 (op.code * 2 ^ 24) ||| atRd rd := by
  simp [packWord0_eq_or]

theorem packWord0_ra (op : Op) (ra : Reg) : packWord0 op 0 ra 0 = BitVec.ofNat 32 (op.code * 2 ^ 24) ||| atRa ra := by
  simp [packWord0_eq_or]

theorem packWord0_rd_ra (op : Op) (rd ra : Reg) :
    packWord0 op rd ra 0 = BitVec.ofNat 32 (op.code * 2 ^ 24) ||| atRd rd ||| atRa ra := by
  simp [packWord0_eq_or]

theorem packWord0_ra_rb (op : Op) (ra rb : Reg) :
    packWord0 op 0 ra rb = BitVec.ofNat 32 (op.code * 2 ^ 24) ||| atRa ra ||| atRb rb := by
  simp [packWord0_eq_or]

end Sys2Proof

end

section
/-!
The three effects the statements name, `Writes`, `Raises` and `Stores`, from the way a command ends: one rule each. A
register's limbs are `blob` of its value (rule R10).
-/

namespace Sys2Proof.Machine

/-! ## A value is `blob` of its number -/

theorem blob_val (v : Blob) : blob v.length (val v) = v := by
  induction v with
  | nil => rfl
  | cons l ls ih =>
    have hlt := l.isLt
    have hlow : BitVec.ofNat 32 (val (l :: ls)) = l := by
      apply BitVec.eq_of_toNat_eq
      rw [val_cons, BitVec.toNat_ofNat]
      omega
    have hhigh : val (l :: ls) / 2 ^ 32 = val ls := by rw [val_cons]; omega
    rw [List.length_cons, blob, hlow, hhigh, ih]

@[simp] theorem val_zeroBlob (n : Nat) : val (zeroBlob n) = 0 := by
  induction n with
  | zero => rfl
  | succ n ih => rw [zeroBlob, List.replicate_succ, val_cons, ← zeroBlob, ih]; rfl

/-! ## The ends of a command as effects -/

/-- A command that completes with N bits written to V[rd] writes the value they are of. -/
theorem writes_of_exec {i : Instr} {s : State} {rd : Reg} {b : Blob} {x : Nat}
    (h : exec i s = (s.setReg rd b).complete) (hlen : b.length = s.cfg.limbs) (hx : val b = x) :
    Claims.Writes i s rd x := by
  rw [Claims.Writes, h, ← hx, ← hlen, blob_val]
  rfl

theorem raises_of_exec {i : Instr} {s : State} {c : Cause} (h : exec i s = s.raiseFault c i) : Claims.Raises i s c :=
  h

/-- A command that completes with n bytes written to TBUF stores those bytes and no other. -/
theorem stores_of_exec {i : Instr} {s : State} {base n : Nat} {bs : List Byte} {f : Nat → Byte} (hinv : s.Inv)
    (h : exec i s = (s.memWrite base bs).complete) (hlen : bs.length = n) (hf : ∀ j < n, bs[j]? = some (f j)) :
    Claims.Stores i s base n f := by
  refine ⟨_, h, rfl, fun a => ?_⟩
  have hdz : { s.memWrite base bs with dz := false }.tbufByte a = (s.memWrite base bs).tbufByte a := rfl
  rw [hdz, State.tbufByte_memWrite s base bs a hinv.tbuf_wf, hlen]
  split_ifs with ha
  · rw [List.getD_eq_getElem?_getD, hf (a - base) (by omega), Option.getD_some]
  · rfl

end Sys2Proof.Machine

open Sys2Proof Sys2Proof.Machine Sys2Proof.Claims

/-- Settles O20: each of the three completes with one register written; the limbs of ZERO and of MOV's source are those
of a value of N bits, and LDU64 writes `blob` itself. -/
theorem constructorsWriteTheirValue : Obligations.ConstructorsWriteTheirValue := by
  intro s rd ra imm64 hinv
  have hlow : BitVec.ofNat 32 imm64.toNat = imm64.extractLsb' 0 32 := rfl
  have hhigh : BitVec.ofNat 32 (imm64.toNat / 2 ^ 32) = imm64.extractLsb' 32 32 := by
    rw [BitVec.extractLsb', Nat.shiftRight_eq_div_pow]
  refine ⟨?_, ?_, ?_, ?_, ?_, rfl⟩
  · exact congrArg (· :: []) (packWord0_rd .zero rd)
  · exact congrArg (· :: []) (packWord0_rd_ra .mov rd ra)
  · rw [← hlow, ← hhigh]
    exact congrArg (· :: _) (packWord0_rd .ldu64 rd)
  · exact writes_of_exec rfl (zeroBlob_length _) (val_zeroBlob _)
  · exact writes_of_exec rfl (hinv.reg_limbs ra) rfl

end

section
/-!
Raw bytes through the transfer buffer (rules R53 to R55, R113, R114): what LDRAW reads, what STRAW stores, and LDRAW
after STRAW.
-/

namespace Sys2Proof.Machine

/-- `MemRead` answers the bytes that stand at its addresses (rule R53). -/
theorem State.memRead_eq {s : State} {a : Nat} {bs : List Byte}
    (h : ∀ j < bs.length, bs[j]? = some (s.tbufByte (a + j))) : s.memRead a bs.length = bs := by
  apply List.ext_getElem?
  intro j
  by_cases hj : j < bs.length
  · rw [State.memRead_getElem? s a bs.length j hj, h j hj]
  · simp [hj]

/-- The value read from whole limbs of TBUF is the sum of its bytes (rule R55). -/
theorem val_fromRaw_memRead (s : State) (a : Nat) {n : Nat} (hn : n % 4 = 0) :
    val (fromRaw (s.memRead a n)) = Claims.sumBytes n fun j => s.tbufByte (a + j) := by
  rw [val_fromRaw _ (by simpa using hn), State.memRead_length]
  refine Finset.sum_congr rfl fun j hj => ?_
  have hbyte : (s.memRead a n).getD j 0#8 = s.tbufByte (a + j) := by
    rw [List.getD_eq_getElem?_getD, State.memRead_getElem? s a n j (Finset.mem_range.mp hj), Option.getD_some]
  simp only [hbyte]

/-- The raw bytes of a register are NB in number (rules R5, R54). -/
theorem State.Inv.raw_reg_length {s : State} (hinv : s.Inv) (r : Reg) : (raw (s.reg r)).length = s.cfg.rawBytes := by
  rw [raw_length, hinv.reg_limbs, Config.rawBytes_eq]

end Sys2Proof.Machine

open Sys2Proof Sys2Proof.Machine Sys2Proof.Claims

/-- Settles O21: the three ways LDRAW ends are the three cases of the statement, and the NB bytes read are L limbs. -/
theorem ldrawReadsRawBytes : Obligations.LdrawReadsRawBytes := by
  intro s rd addr len hinv
  refine ⟨congrArg (· :: _) (packWord0_rd .ldraw rd), ?_⟩
  rcases execLdraw_cases rd addr len s with ⟨hlen, h⟩ | ⟨hlen, hin, h⟩ | ⟨hlen, hout, h⟩
  · exact ⟨fun _ => raises_of_exec h, fun heq => absurd heq hlen, fun heq => absurd heq hlen⟩
  · refine ⟨fun hne => absurd hlen hne, fun _ hout => absurd hout (Nat.not_lt.mpr hin), fun _ _ => ?_⟩
    have hnb := Config.rawBytes_eq s.cfg
    exact writes_of_exec h (by rw [fromRaw_length, State.memRead_length]; omega) (val_fromRaw_memRead s _ (by omega))
  · exact ⟨fun hne => absurd hlen hne, fun _ _ => raises_of_exec h, fun _ hin => absurd hout (Nat.not_lt.mpr hin)⟩

/-- Settles O22: in range STRAW writes `raw`, whose byte j is byte j of the value; out of range it raises the fault. -/
theorem strawWritesRawBytes : Obligations.StrawWritesRawBytes := by
  intro s ra addr hinv
  refine ⟨congrArg (· :: _) (packWord0_ra .straw ra), ?_⟩
  rcases execStraw_cases ra addr s with ⟨hin, h⟩ | ⟨hout, h⟩
  · refine ⟨fun hout => absurd hout (Nat.not_lt.mpr hin), fun _ => ?_⟩
    have hlen := hinv.raw_reg_length ra
    exact stores_of_exec hinv h hlen fun j hj => raw_getElem?_eq_val_byte _ (by rwa [← raw_length, hlen])
  · exact ⟨fun _ => raises_of_exec h, fun hin => absurd hout (Nat.not_lt.mpr hin)⟩

/-- Settles O37: STRAW leaves the raw bytes of V[ra] at addr by `strawWritesRawBytes`, LDRAW reads them there, and
`fromRaw` undoes `raw`. -/
theorem rawRoundTrip : Obligations.RawRoundTrip := by
  intro s ra rd addr len hinv hlen hin
  obtain ⟨-, -, hstores⟩ := strawWritesRawBytes s ra addr hinv
  obtain ⟨t, ht, hframe, hbytes⟩ := hstores hin
  have hcfg : t.cfg = s.cfg := (congrArg State.cfg hframe :)
  have hraw : (raw (s.reg ra)).length = t.cfg.rawBytes := hcfg ▸ hinv.raw_reg_length ra
  have hread : t.memRead (addrOf addr) t.cfg.rawBytes = raw (s.reg ra) := by
    rw [← hraw]
    refine State.memRead_eq fun j hj => ?_
    have hj' : j < bitsN s / 8 := by rwa [hraw, hcfg] at hj
    rw [hbytes, if_pos (by omega), Nat.add_sub_cancel_left, raw_getElem?_eq_val_byte _ (by rwa [raw_length] at hj)]
  rw [← hcfg] at hin
  rcases execLdraw_cases rd addr len t with ⟨hne, -⟩ | ⟨-, -, h⟩ | ⟨-, hout, -⟩
  · exact absurd (hcfg ▸ hlen) hne
  · refine ⟨t, _, ht, h, ?_⟩
    rw [hread, fromRaw_raw]
    exact State.reg_setReg_same t rd (s.reg ra)
  · exact absurd (hcfg ▸ hin) (Nat.not_le.mpr hout)

end

section
/-!
The null test and the comparison against numbers (rules R115, R116). Comparing bytes from the highest down is comparing
numbers: the bytes above decide, and the lowest byte where they are equal.
-/

namespace Sys2Proof.Machine

/-! ## The null test -/

theorem isNull_iff (v : Blob) : isNull v = true ↔ val v = 0 := by
  induction v with
  | nil => simp [isNull]
  | cons l ls ih =>
    have hl : l = 0#32 ↔ l.toNat = 0 := by rw [← BitVec.toNat_inj]; rfl
    rw [isNull, List.all_cons, Bool.and_eq_true, beq_iff_eq, ← isNull, ih, hl, val_cons]
    omega

/-! ## The comparison -/

/-- The bytes compared first decide, unless they are all equal. -/
theorem cmpBytes_append {as bs : List Byte} (h : as.length = bs.length) (as' bs' : List Byte) :
    cmpBytes (as ++ as') (bs ++ bs') = (cmpBytes as bs).then (cmpBytes as' bs') := by
  induction as generalizing bs with
  | nil =>
    obtain rfl := List.length_eq_zero_iff.mp h.symm
    rfl
  | cons a as ih =>
    obtain ⟨b, bs, rfl⟩ := List.exists_cons_of_length_eq_add_one h.symm
    simp only [List.cons_append, cmpBytes]
    split_ifs
    · exact ih (Nat.succ.inj h)
    · rfl
    · rfl

theorem cmpBytes_singleton (a b : Byte) : cmpBytes [a] [b] = compare a.toNat b.toNat := by
  rcases Nat.lt_trichotomy a.toNat b.toNat with h | h | h
  · simp [cmpBytes, ← BitVec.toNat_inj, BitVec.lt_def, Nat.compare_eq_lt.mpr h, h, h.ne]
  · simp [cmpBytes, ← BitVec.toNat_inj, h]
  · simp [cmpBytes, ← BitVec.toNat_inj, BitVec.lt_def, Nat.compare_eq_gt.mpr h, h.ne', h.not_gt]

/-- Two numbers compare as their quotients by 2^8, and as their low bytes where these are equal. -/
theorem compare_byte_add (x y : Byte) (p q : Nat) :
    compare (x.toNat + 2 ^ 8 * p) (y.toNat + 2 ^ 8 * q) = (compare p q).then (compare x.toNat y.toNat) := by
  have hx := x.isLt
  have hy := y.isLt
  rcases Nat.lt_trichotomy p q with h | rfl | h
  · rw [Nat.compare_eq_lt.mpr h, Nat.compare_eq_lt.mpr (by omega)]; rfl
  · simp [Nat.compare_eq_ite_lt]
  · rw [Nat.compare_eq_gt.mpr h, Nat.compare_eq_gt.mpr (by omega)]; rfl

/-- Bytes compared from the last down compare as the numbers they spell. -/
theorem cmpBytes_reverse {as bs : List Byte} (h : as.length = bs.length) :
    cmpBytes as.reverse bs.reverse = compare (Claims.sumBytes as.length fun j => as.getD j 0#8)
      (Claims.sumBytes bs.length fun j => bs.getD j 0#8) := by
  induction as generalizing bs with
  | nil =>
    obtain rfl := List.length_eq_zero_iff.mp h.symm
    rfl
  | cons a as ih =>
    obtain ⟨b, bs, rfl⟩ := List.exists_cons_of_length_eq_add_one h.symm
    have hlen : as.length = bs.length := Nat.succ.inj h
    simp only [List.reverse_cons, List.length_cons, sumBytes_succ, List.getD_cons_zero, List.getD_cons_succ]
    rw [cmpBytes_append (by simpa using hlen), ih hlen, cmpBytes_singleton, compare_byte_add]

theorem val_eq_sumBytes_raw (v : Blob) : val v = Claims.sumBytes (raw v).length fun j => (raw v).getD j 0#8 := by
  rw [← val_fromRaw (raw v) (by simp), fromRaw_raw]

/-- The comparison of rule R116 is the comparison of the numbers. -/
theorem cmpBlob_eq_compare {a b : Blob} (h : a.length = b.length) : cmpBlob a b = compare (val a) (val b) := by
  rw [cmpBlob, cmpBytes_reverse (by simp [h]), ← val_eq_sumBytes_raw, ← val_eq_sumBytes_raw]

end Sys2Proof.Machine

open Sys2Proof Sys2Proof.Machine Sys2Proof.Claims

/-- Settles O23: every limb is 0 exactly when the value is. -/
theorem isnullTestsForZero : Obligations.IsnullTestsForZero := by
  intro s ra
  have hnull : isNull (s.reg ra) = decide (val (s.reg ra) = 0) := by
    rw [Bool.eq_iff_iff, decide_eq_true_iff, isNull_iff]
  refine ⟨congrArg (· :: []) (packWord0_ra .isnull ra), ?_⟩
  rw [← hnull]
  rfl

/-- Settles O24: both registers have L limbs, so the comparison is that of the numbers, and each flag is one of its
three outcomes. -/
theorem cmpOrdersNumerically : Obligations.CmpOrdersNumerically := by
  intro s ra rb hinv
  have hcmp : cmpBlob (s.reg ra) (s.reg rb) = compare (val (s.reg ra)) (val (s.reg rb)) :=
    cmpBlob_eq_compare ((hinv.reg_limbs ra).trans (hinv.reg_limbs rb).symm)
  have hexec : exec (.cmp ra rb) s = (s.setOrder (cmpBlob (s.reg ra) (s.reg rb))).complete := rfl
  refine ⟨congrArg (· :: []) (packWord0_ra_rb .cmp ra rb), ?_⟩
  rw [hexec, hcmp]
  simp only [State.complete, State.setOrder, Nat.compare_eq_eq, Nat.compare_eq_lt, Nat.compare_eq_gt]

end

section
/-!
The bits and the limbs of a value: bit i of `val` is a bit of one limb, and taking, dropping and joining limbs is
arithmetic by powers of 2^32 (rule R10).
-/

namespace Sys2Proof.Machine

/-- A value is its lowest limb below 32 bits, and the limbs above from there on. -/
theorem testBit_val_cons (l : Word) (ls : Blob) (i : Nat) :
    (val (l :: ls)).testBit i = if i < 32 then l.getLsbD i else (val ls).testBit (i - 32) := by
  rw [val_cons, Nat.add_comm, Nat.testBit_two_pow_mul_add _ l.isLt]
  rfl

theorem testBit_val_of_le {v : Blob} {i : Nat} (h : 32 * v.length ≤ i) : (val v).testBit i = false :=
  Nat.testBit_lt_two_pow ((val_lt v).trans_le (Nat.pow_le_pow_right (by decide) h))

/-- Two values of as many limbs are the same if their numbers are. -/
theorem eq_of_val_eq {a b : Blob} (hlen : a.length = b.length) (h : val a = val b) : a = b := by
  rw [← blob_val a, ← blob_val b, hlen, h]

theorem val_append (a b : Blob) : val (a ++ b) = val a + 2 ^ (32 * a.length) * val b := by
  induction a with
  | nil => simp
  | cons l ls ih =>
    rw [List.cons_append, val_cons, ih, val_cons, List.length_cons]
    ring

/-- A value splits at limb n into the number of the limbs below and of those from there on. -/
theorem val_eq_take_add_drop (v : Blob) (n : Nat) :
    val v = val (v.take n) + 2 ^ (32 * n) * val (v.drop n) := by
  rcases Nat.le_total n v.length with h | h
  · conv_lhs => rw [← List.take_append_drop n v]
    rw [val_append, List.length_take, Nat.min_eq_left h]
  · rw [List.take_of_length_le h, List.drop_eq_nil_of_le h, val_nil, Nat.mul_zero, Nat.add_zero]

theorem val_take_lt (v : Blob) (n : Nat) : val (v.take n) < 2 ^ (32 * n) :=
  (val_lt _).trans_le (Nat.pow_le_pow_right (by decide) (Nat.mul_le_mul_left 32 (List.length_take_le n v)))

theorem val_take (v : Blob) (n : Nat) : val (v.take n) = val v % 2 ^ (32 * n) := by
  rw [val_eq_take_add_drop v n, Nat.add_mul_mod_self_left, Nat.mod_eq_of_lt (val_take_lt v n)]

theorem val_drop (v : Blob) (n : Nat) : val (v.drop n) = val v / 2 ^ (32 * n) := by
  rw [val_eq_take_add_drop v n, Nat.add_mul_div_left _ _ (Nat.two_pow_pos _), Nat.div_eq_of_lt (val_take_lt v n),
    Nat.zero_add]

end Sys2Proof.Machine

end

section
/-!
The bitwise commands against numbers (rules R140 to R143). Complementing every limb is subtracting from the highest
value; a limb-wise combination combines the numbers bit by bit.
-/

namespace Sys2Proof.Machine

/-- The complement of a value, added to it, sets every bit. -/
theorem val_notBlob_add (a : Blob) : val (notBlob a) + val a + 1 = 2 ^ (32 * a.length) := by
  induction a with
  | nil => rfl
  | cons l ls ih =>
    have hlimb : (l ^^^ 0xFFFFFFFF#32).toNat + l.toNat + 1 = 2 ^ 32 := by
      have hnot : l ^^^ 0xFFFFFFFF#32 = ~~~l := BitVec.xor_allOnes
      rw [hnot]
      bv_omega
    calc val (notBlob (l :: ls)) + val (l :: ls) + 1
        = ((l ^^^ 0xFFFFFFFF#32).toNat + l.toNat + 1) + 2 ^ 32 * (val (notBlob ls) + val ls) := by
          rw [notBlob, List.map_cons, ← notBlob, val_cons, val_cons]; ring
      _ = 2 ^ 32 * (val (notBlob ls) + val ls + 1) := by rw [hlimb]; ring
      _ = 2 ^ (32 * (l :: ls).length) := by rw [ih, List.length_cons]; ring

theorem val_notBlob (a : Blob) : val (notBlob a) = 2 ^ (32 * a.length) - 1 - val a := by
  have h := val_notBlob_add a
  omega

/-- A limb operation that acts bit by bit acts so on the numbers, if it answers 0 for two bits 0 (those above the top
limb). -/
theorem testBit_val_zipWith {f : Word → Word → Word} {op : Bool → Bool → Bool} (hop : op false false = false)
    (hf : ∀ x y i, (f x y).getLsbD i = op (x.getLsbD i) (y.getLsbD i)) {a b : Blob} (hlen : a.length = b.length)
    (i : Nat) : (val (List.zipWith f a b)).testBit i = op ((val a).testBit i) ((val b).testBit i) := by
  induction a generalizing b i with
  | nil =>
    obtain rfl := List.length_eq_zero_iff.mp hlen.symm
    simp [hop]
  | cons x xs ih =>
    obtain ⟨y, ys, rfl⟩ := List.exists_cons_of_length_eq_add_one hlen.symm
    simp only [List.zipWith_cons_cons, testBit_val_cons]
    split_ifs
    · exact hf x y i
    · exact ih (Nat.succ.inj hlen) (i - 32)

theorem val_andBlob {a b : Blob} (h : a.length = b.length) : val (andBlob a b) = val a &&& val b :=
  Nat.eq_of_testBit_eq fun i => by
    rw [andBlob, Nat.testBit_and, testBit_val_zipWith (op := and) rfl (fun _ _ _ => BitVec.getLsbD_and) h]

theorem val_orBlob {a b : Blob} (h : a.length = b.length) : val (orBlob a b) = val a ||| val b :=
  Nat.eq_of_testBit_eq fun i => by
    rw [orBlob, Nat.testBit_or, testBit_val_zipWith (op := or) rfl (fun _ _ _ => BitVec.getLsbD_or) h]

theorem val_xorBlob {a b : Blob} (h : a.length = b.length) : val (xorBlob a b) = val a ^^^ val b :=
  Nat.eq_of_testBit_eq fun i => by
    rw [xorBlob, Nat.testBit_xor, testBit_val_zipWith (op := xor) rfl (fun _ _ _ => BitVec.getLsbD_xor) h]

end Sys2Proof.Machine

open Sys2Proof Sys2Proof.Machine Sys2Proof.Claims

/-- Settles O25: each of the four completes with the limb-wise result in V[rd], whose number is the one named, since
the operands have L limbs each. -/
theorem bitwiseCommandsCombineBits : Obligations.BitwiseCommandsCombineBits := by
  intro s rd ra rb hinv
  have ha := hinv.reg_limbs ra
  have hab : (s.reg ra).length = (s.reg rb).length := ha.trans (hinv.reg_limbs rb).symm
  refine ⟨?_, ?_, ?_, ?_, ?_, ?_, ?_, ?_⟩
  · exact congrArg (· :: []) (packWord0_rd_ra .not rd ra)
  · exact congrArg (· :: []) (packWord0_eq_or .and rd ra rb)
  · exact congrArg (· :: []) (packWord0_eq_or .or rd ra rb)
  · exact congrArg (· :: []) (packWord0_eq_or .xor rd ra rb)
  · exact writes_of_exec rfl ((notBlob_length _).trans ha) (by rw [val_notBlob, ha, Config.limbs_mul, bitsN])
  · exact writes_of_exec rfl (by rw [andBlob_length, ← hab, Nat.min_self, ha]) (val_andBlob hab)
  · exact writes_of_exec rfl (by rw [orBlob_length, ← hab, Nat.min_self, ha]) (val_orBlob hab)
  · exact writes_of_exec rfl (by rw [xorBlob_length, ← hab, Nat.min_self, ha]) (val_xorBlob hab)

end

section
/-!
The shifts against numbers (rules R144 to R146). The sub-limb loops are settled bit by bit, each limb being a window on
two limbs of the operand; the whole-limb part and the laws are arithmetic by powers of two.
-/

namespace Sys2Proof.Machine

/-! ## The sub-limb shifts -/

/-- A shifted limb of rule R144 is 32 bits of the two limbs it is cut from. -/
theorem getLsbD_shl_or_below (a below : Word) {r i : Nat} (hi : i < 32) :
    (a <<< r ||| if r = 0 then 0#32 else below >>> (32 - r)).getLsbD i =
      if i < r then below.getLsbD (32 - r + i) else a.getLsbD (i - r) := by
  split_ifs with h0 hir hir
  · omega
  · simp [h0, hi]
  · simp [hir]
  · rw [BitVec.getLsbD_or, BitVec.getLsbD_shiftLeft, BitVec.getLsbD_ushiftRight,
      BitVec.getLsbD_of_ge below (32 - r + i) (by omega)]
    simp [hi, hir]

/-- A shifted limb of rule R145 is 32 bits of the two limbs it is cut from. -/
theorem getLsbD_shr_or_above (a above : Word) {r i : Nat} (hi : i < 32) :
    (a >>> r ||| if r = 0 then 0#32 else above <<< (32 - r)).getLsbD i =
      if r + i < 32 then a.getLsbD (r + i) else above.getLsbD (i - (32 - r)) := by
  split_ifs with h0 hir hir
  · simp
  · omega
  · simp [show i < 32 - r by omega]
  · rw [BitVec.getLsbD_or, BitVec.getLsbD_shiftLeft, BitVec.getLsbD_ushiftRight,
      BitVec.getLsbD_of_ge a (r + i) (by omega)]
    simp [hi, show ¬i < 32 - r by omega]

/-- The loop of rule R144 answers 32 bits for each limb of the value, `r` bits up, where `below` fills in from
underneath. -/
theorem testBit_val_shlBits {r : Nat} (hr : r < 32) (below : Word) (a : Blob) (i : Nat) :
    (val (shlBits r below a)).testBit i =
      (decide (i < 32 * a.length) && (val (below :: a)).testBit (32 - r + i)) := by
  induction a generalizing below i with
  | nil => simp [shlBits]
  | cons l ls ih =>
    rw [shlBits, testBit_val_cons, testBit_val_cons below, List.length_cons]
    by_cases hi : i < 32
    · have hlen : i < 32 * (ls.length + 1) := by omega
      rw [if_pos hi, getLsbD_shl_or_below l below hi, decide_eq_true hlen, Bool.true_and, testBit_val_cons]
      by_cases hir : i < r
      · rw [if_pos hir, if_pos (by omega)]
      · rw [if_neg hir, if_neg (by omega), if_pos (by omega)]
        congr 1
        omega
    · rw [if_neg hi, ih, if_neg (by omega)]
      congr 2
      · rw [eq_iff_iff]
        omega
      · omega

theorem val_shlBits {r : Nat} (hr : r < 32) (a : Blob) :
    val (shlBits r 0#32 a) = val a * 2 ^ r % 2 ^ (32 * a.length) := by
  refine Nat.eq_of_testBit_eq fun i => ?_
  rw [testBit_val_shlBits hr, Nat.testBit_mod_two_pow, Nat.testBit_mul_two_pow, testBit_val_cons]
  congr 1
  by_cases hir : r ≤ i
  · rw [if_neg (by omega), decide_eq_true hir, Bool.true_and]
    congr 1
    omega
  · rw [if_pos (by omega), decide_eq_false hir, Bool.false_and, BitVec.getLsbD_zero]

/-- The loop of rule R145 answers the value `r` bits down. -/
theorem testBit_val_shrBits {r : Nat} (hr : r < 32) (a : Blob) (i : Nat) :
    (val (shrBits r a)).testBit i = (val a).testBit (r + i) := by
  induction a using shrBits.induct generalizing i with
  | case1 => simp [shrBits]
  | case2 a =>
    rw [shrBits, testBit_val_cons, testBit_val_cons, BitVec.getLsbD_ushiftRight, val_nil, Nat.zero_testBit,
      Nat.zero_testBit]
    by_cases hir : r + i < 32
    · rw [if_pos (by omega), if_pos hir]
    · rw [if_neg hir, BitVec.getLsbD_of_ge a (r + i) (by omega), ite_self]
  | case3 a b as ih =>
    rw [shrBits, testBit_val_cons, testBit_val_cons a]
    by_cases hi : i < 32
    · rw [if_pos hi, getLsbD_shr_or_above a b hi]
      by_cases hir : r + i < 32
      · rw [if_pos hir, if_pos hir]
      · rw [if_neg hir, if_neg hir, testBit_val_cons, if_pos (by omega)]
        congr 1
        omega
    · rw [if_neg hi, ih, if_neg (by omega)]
      congr 1
      omega

theorem val_shrBits {r : Nat} (hr : r < 32) (a : Blob) : val (shrBits r a) = val a / 2 ^ r :=
  Nat.eq_of_testBit_eq fun i => by rw [testBit_val_shrBits hr, Nat.testBit_div_two_pow, Nat.add_comm]

/-! ## The shifts -/

/-- The closed form of rule R144. -/
theorem val_shlBlob (a : Blob) (s : Nat) : val (shlBlob a s) = val a * 2 ^ s % 2 ^ (32 * a.length) := by
  have hs : 2 ^ s = 2 ^ (32 * (s / 32)) * 2 ^ (s % 32) := by rw [← Nat.pow_add, Nat.div_add_mod]
  rw [shlBlob, val_take, val_append, val_zeroBlob, zeroBlob_length, Nat.zero_add,
    val_shlBits (Nat.mod_lt s (by decide)), Nat.mul_mod_mod]
  rcases Nat.le_total (s / 32) a.length with h | h
  · rw [Nat.min_eq_left h, hs]
    congr 1
    ring
  · have hdvd : 2 ^ (32 * a.length) ∣ 2 ^ s := Nat.pow_dvd_pow 2 (by omega)
    rw [Nat.min_eq_right h, Nat.mul_mod_right, Nat.mod_eq_zero_of_dvd (hdvd.mul_left _)]

/-- The closed form of rule R145. -/
theorem val_shrBlob (a : Blob) (s : Nat) : val (shrBlob a s) = val a / 2 ^ s := by
  rw [shrBlob, val_append, val_zeroBlob, Nat.mul_zero, Nat.add_zero, val_shrBits (Nat.mod_lt s (by decide)), val_drop,
    Nat.div_div_eq_div_mul, ← Nat.pow_add, Nat.div_add_mod]

/-! ## The shift laws -/

theorem val_shrBlob_shlBlob {b : Blob} {s : Nat} (h : s ≤ 32 * b.length) :
    val (shrBlob (shlBlob b s) s) = val b % 2 ^ (32 * b.length - s) := by
  have hpow : 2 ^ (32 * b.length) = 2 ^ s * 2 ^ (32 * b.length - s) := by
    rw [← Nat.pow_add, Nat.add_sub_cancel' h]
  rw [val_shrBlob, val_shlBlob, hpow, Nat.mod_mul_right_div_self, Nat.mul_div_cancel _ (Nat.two_pow_pos s)]

theorem val_shlBlob_shrBlob (b : Blob) (s : Nat) : val (shlBlob (shrBlob b s) s) = val b - val b % 2 ^ s := by
  have hlt : val b / 2 ^ s * 2 ^ s < 2 ^ (32 * b.length) := (Nat.div_mul_le_self _ _).trans_lt (val_lt b)
  rw [val_shlBlob, val_shrBlob, shrBlob_length, Nat.mod_eq_of_lt hlt, Nat.div_mul_self_eq_mod_sub_self]

theorem shlBlob_shlBlob (b : Blob) (s t : Nat) : shlBlob (shlBlob b s) t = shlBlob b (s + t) :=
  eq_of_val_eq (by simp) (by
    rw [val_shlBlob, val_shlBlob, val_shlBlob, shlBlob_length, Nat.mod_mul_mod, Nat.mul_assoc, ← Nat.pow_add])

theorem shrBlob_shrBlob (b : Blob) (s t : Nat) : shrBlob (shrBlob b s) t = shrBlob b (s + t) :=
  eq_of_val_eq (by simp) (by
    rw [val_shrBlob, val_shrBlob, val_shrBlob, Nat.div_div_eq_div_mul, ← Nat.pow_add])

end Sys2Proof.Machine

open Sys2Proof Sys2Proof.Machine Sys2Proof.Claims

/-- Settles O26: both complete with the shifted limbs in V[rd], and no amount is excluded in `val_shlBlob` and
`val_shrBlob`. -/
theorem shiftsMultiplyAndDivide : Obligations.ShiftsMultiplyAndDivide := by
  intro s rd ra imm32 hinv
  have ha := hinv.reg_limbs ra
  refine ⟨?_, ?_, ?_, ?_⟩
  · exact congrArg (· :: _) (packWord0_rd_ra .shl rd ra)
  · exact congrArg (· :: _) (packWord0_rd_ra .shr rd ra)
  · exact writes_of_exec rfl ((shlBlob_length _ _).trans ha)
      (by rw [val_shlBlob, ha, Config.limbs_mul, bitsN, shiftAmount])
  · exact writes_of_exec rfl ((shrBlob_length _ _).trans ha) (val_shrBlob _ _)

/-- Settles O27: the laws of the closed forms; the third does not need its bound on s + t, which is what a command can
name. -/
theorem shiftLaws : Obligations.ShiftLaws := fun b s t hs =>
  ⟨val_shrBlob_shlBlob hs.le, val_shlBlob_shrBlob b s, fun _ => ⟨shlBlob_shlBlob b s t, shrBlob_shrBlob b s t⟩⟩

end

section
/-!
The carry loops of addition and multiplication against numbers (rules R160 to R166). A limb receives the low 32 bits of
an exact sum and hands the rest to the limb above as a carry; one such step is arithmetic by 2^32, and every loop is an
induction over it.
-/

namespace Sys2Proof.Machine

/-! ## A limb and the value above it -/

/-- A value above a limb, known modulo the width there, gives the number of both modulo the whole width. -/
theorem val_cons_of_val_mod {v : Blob} {x k : Nat} (l : Word) (h : val v = x % 2 ^ (32 * k)) :
    val (l :: v) = (l.toNat + 2 ^ 32 * x) % 2 ^ (32 * (k + 1)) := by
  rw [val_cons, h, Nat.mul_add, Nat.add_comm (32 * k), Nat.mul_one, Nat.pow_add, Nat.mod_mul,
    Nat.add_mul_mod_self_left, Nat.add_mul_div_left _ _ (Nat.two_pow_pos 32), Nat.mod_eq_of_lt l.isLt,
    Nat.div_eq_of_lt l.isLt, Nat.zero_add]

/-- The step of every carry loop: the limb keeps `n mod 2^32`, and `n div 2^32` goes into the value above. -/
theorem val_ofNat_cons_of_carry {v : Blob} {n x k : Nat} (h : val v = (n / 2 ^ 32 + x) % 2 ^ (32 * k)) :
    val (BitVec.ofNat 32 n :: v) = (n + 2 ^ 32 * x) % 2 ^ (32 * (k + 1)) := by
  rw [val_cons_of_val_mod _ h, BitVec.toNat_ofNat, Nat.mul_add, ← Nat.add_assoc, Nat.mod_add_div]

/-- `blob` takes a number modulo 2^(32n) (rule R10). -/
theorem val_blob (n x : Nat) : val (blob n x) = x % 2 ^ (32 * n) := by
  induction n generalizing x with
  | zero => simp [blob, Nat.mod_one]
  | succ n ih =>
    rw [blob, val_ofNat_cons_of_carry (x := 0) (by rw [ih, Nat.add_zero]), Nat.mul_zero, Nat.add_zero]

/-! ## Addition -/

theorem val_addLoop (c : Nat) {a b : Blob} (hlen : a.length = b.length) :
    val (addLoop c a b) = (c + (val a + val b)) % 2 ^ (32 * a.length) := by
  induction a generalizing c b with
  | nil => simp [addLoop, Nat.mod_one]
  | cons x xs ih =>
    obtain ⟨y, ys, rfl⟩ := List.exists_cons_of_length_eq_add_one hlen.symm
    rw [addLoop, List.length_cons, val_ofNat_cons_of_carry (ih _ (Nat.succ.inj hlen)), val_cons, val_cons]
    congr 1
    ring

/-- The closed form of rule R161. -/
theorem val_addBlob {a b : Blob} (hlen : a.length = b.length) :
    val (addBlob a b) = (val a + val b) % 2 ^ (32 * a.length) := by
  rw [addBlob, val_addLoop 0 hlen, Nat.zero_add]

/-! ## Increment and decrement -/

/-- The closed form of rule R163: a limb that wraps to 0 carries into the limbs above, any other ends the ripple. -/
theorem val_incBlob (a : Blob) : val (incBlob a) = (val a + 1) % 2 ^ (32 * a.length) := by
  induction a with
  | nil => rfl
  | cons l ls ih =>
    rw [incBlob, List.length_cons, val_cons]
    split_ifs with hwrap
    · have hl : l.toNat + 1 = 2 ^ 32 := by bv_omega
      rw [val_cons_of_val_mod _ ih, BitVec.toNat_zero]
      congr 1
      omega
    · have hl : (l + 1#32).toNat = l.toNat + 1 := by bv_omega
      rw [val_cons_of_val_mod _ (Nat.mod_eq_of_lt (val_lt ls)).symm, hl]
      congr 1
      omega

/-- Decrementing undoes itself by an increment: a limb 0 that borrows is a limb that wraps to 0 and carries. -/
theorem incBlob_decBlob (a : Blob) : incBlob (decBlob a) = a := by
  induction a with
  | nil => rfl
  | cons l ls ih =>
    rw [decBlob]
    split_ifs with hborrow
    · rw [incBlob, BitVec.sub_add_cancel, if_pos hborrow, ih, hborrow]
    · rw [incBlob, BitVec.sub_add_cancel, if_neg hborrow]

/-- The closed form of rule R164. -/
theorem val_decBlob (a : Blob) : val (decBlob a) = (2 ^ (32 * a.length) + val a - 1) % 2 ^ (32 * a.length) := by
  have hlt : val (decBlob a) < 2 ^ (32 * a.length) := decBlob_length a ▸ val_lt (decBlob a)
  have hinc : val a = (val (decBlob a) + 1) % 2 ^ (32 * a.length) := by
    rw [← decBlob_length a, ← val_incBlob, incBlob_decBlob]
  obtain htop | hbelow : val (decBlob a) + 1 = _ ∨ val (decBlob a) + 1 < _ := Nat.eq_or_lt_of_le hlt
  · rw [hinc, htop, Nat.mod_self, Nat.add_zero, ← htop, Nat.add_sub_cancel, Nat.mod_eq_of_lt (Nat.lt_succ_self _)]
  · rw [hinc, Nat.mod_eq_of_lt hbelow, ← Nat.add_assoc, Nat.add_sub_cancel, Nat.add_mod_left, Nat.mod_eq_of_lt hlt]

/-! ## Negation and subtraction -/

/-- The closed form of rule R160. -/
theorem val_negBlob (a : Blob) : val (negBlob a) = (2 ^ (32 * a.length) - val a) % 2 ^ (32 * a.length) := by
  have hnot := val_notBlob_add a
  rw [negBlob, val_incBlob, notBlob_length]
  congr 1
  omega

/-- The closed form of rule R162. -/
theorem val_subBlob {a b : Blob} (hlen : a.length = b.length) :
    val (subBlob a b) = (2 ^ (32 * a.length) + val a - val b) % 2 ^ (32 * a.length) := by
  have hb := val_lt b
  rw [subBlob, val_addBlob (by rw [negBlob_length, hlen]), val_negBlob, hlen, Nat.add_mod_mod]
  congr 1
  omega

/-! ## Multiplication -/

theorem val_mulsLoop (m : Word) (c : Nat) (a : Blob) :
    val (mulsLoop m c a) = (c + m.toNat * val a) % 2 ^ (32 * a.length) := by
  induction a generalizing c with
  | nil => simp [mulsLoop, Nat.mod_one]
  | cons x xs ih =>
    rw [mulsLoop, List.length_cons, val_ofNat_cons_of_carry (ih _), val_cons]
    congr 1
    ring

/-- The closed form of rule R165. -/
theorem val_mulsBlob (a : Blob) (m : Word) : val (mulsBlob a m) = val a * m.toNat % 2 ^ (32 * a.length) := by
  rw [mulsBlob, val_mulsLoop, Nat.zero_add, Nat.mul_comm]

/-- One row of rule R166 adds `aj · b` to the limbs of the result it runs over, which `b` has no fewer than. -/
theorem val_mulRow (aj : Word) (c : Nat) {r b : Blob} (hlen : r.length ≤ b.length) :
    val (mulRow aj c r b) = (c + (val r + aj.toNat * val b)) % 2 ^ (32 * r.length) := by
  induction r generalizing c b with
  | nil => simp [mulRow, Nat.mod_one]
  | cons x xs ih =>
    obtain _ | ⟨y, ys⟩ := b
    · exact absurd hlen (Nat.not_succ_le_zero _)
    · rw [mulRow, List.length_cons, val_ofNat_cons_of_carry (ih _ (Nat.le_of_succ_le_succ hlen)), val_cons, val_cons]
      congr 1
      ring

/-- The rows from index j up add `a · b` to the result, where all three are counted from limb j. -/
theorem val_mulLoop (b : Blob) {a res : Blob} (hlen : a.length = res.length) (hb : res.length ≤ b.length) :
    val (mulLoop b a res) = (val res + val a * val b) % 2 ^ (32 * res.length) := by
  induction a generalizing res with
  | nil =>
    obtain rfl := List.length_eq_zero_iff.mp hlen.symm
    simp [mulLoop, Nat.mod_one]
  | cons x xs ih =>
    obtain ⟨r, rs, rfl⟩ := List.exists_cons_of_length_eq_add_one hlen.symm
    have hrow := val_mulRow x 0 hb
    obtain ⟨q, qs, hq⟩ := List.exists_cons_of_length_eq_add_one (mulRow_length x 0 (r :: rs) b)
    have hqs : qs.length = rs.length := by simpa [hq] using mulRow_length x 0 (r :: rs) b
    have hrest := ih (res := qs) (by rw [hqs]; exact Nat.succ.inj hlen) (by rw [hqs]; exact Nat.le_of_succ_le hb)
    rw [hq, Nat.zero_add] at hrow
    simp only [mulLoop, hq]
    calc val (q :: mulLoop b xs qs)
        = (val (q :: qs) + 2 ^ 32 * (val xs * val b)) % 2 ^ (32 * (r :: rs).length) := by
          rw [val_cons_of_val_mod q hrest, hqs, List.length_cons, val_cons, Nat.mul_add, Nat.add_assoc]
      _ = (val (r :: rs) + val (x :: xs) * val b) % 2 ^ (32 * (r :: rs).length) := by
          rw [hrow, Nat.mod_add_mod, val_cons x]
          congr 1
          ring

/-- The closed form of rule R166. -/
theorem val_mulBlob {a b : Blob} (hlen : a.length = b.length) :
    val (mulBlob a b) = val a * val b % 2 ^ (32 * a.length) := by
  rw [mulBlob, val_mulLoop b (zeroBlob_length _).symm (by rw [zeroBlob_length, hlen]), val_zeroBlob, zeroBlob_length,
    Nat.zero_add]

end Sys2Proof.Machine

open Sys2Proof Sys2Proof.Machine Sys2Proof.Claims

/-- Settles O28: each of the five completes with the result of its limb loop in V[rd], whose closed form is the number
named, since the operands have L limbs each. -/
theorem additiveCommandsAreModular : Obligations.AdditiveCommandsAreModular := by
  intro s rd ra rb hinv
  have ha := hinv.reg_limbs ra
  have hab : (s.reg ra).length = (s.reg rb).length := ha.trans (hinv.reg_limbs rb).symm
  have hbits : 32 * (s.reg ra).length = bitsN s := by rw [ha, Config.limbs_mul, bitsN]
  refine ⟨?_, ?_, ?_, ?_, ?_, ?_, ?_, ?_, ?_, ?_⟩
  · exact congrArg (· :: []) (packWord0_rd_ra .neg rd ra)
  · exact congrArg (· :: []) (packWord0_eq_or .add rd ra rb)
  · exact congrArg (· :: []) (packWord0_eq_or .sub rd ra rb)
  · exact congrArg (· :: []) (packWord0_rd_ra .inc rd ra)
  · exact congrArg (· :: []) (packWord0_rd_ra .dec rd ra)
  · exact writes_of_exec rfl ((negBlob_length _).trans ha) (by rw [val_negBlob, hbits])
  · exact writes_of_exec rfl (by rw [addBlob_length, ← hab, Nat.min_self, ha]) (by rw [val_addBlob hab, hbits])
  · exact writes_of_exec rfl (by rw [subBlob_length, ← hab, Nat.min_self, ha]) (by rw [val_subBlob hab, hbits])
  · exact writes_of_exec rfl ((incBlob_length _).trans ha) (by rw [val_incBlob, hbits])
  · exact writes_of_exec rfl ((decBlob_length _).trans ha) (by rw [val_decBlob, hbits])

/-- Settles O29: both complete with the result of their limb loop in V[rd], whose closed form is the number named, since
the operands have L limbs each. -/
theorem multiplicationsAreModular : Obligations.MultiplicationsAreModular := by
  intro s rd ra rb imm32 hinv
  have ha := hinv.reg_limbs ra
  have hab : (s.reg ra).length = (s.reg rb).length := ha.trans (hinv.reg_limbs rb).symm
  have hbits : 32 * (s.reg ra).length = bitsN s := by rw [ha, Config.limbs_mul, bitsN]
  refine ⟨?_, ?_, ?_, ?_⟩
  · exact congrArg (· :: _) (packWord0_rd_ra .muls rd ra)
  · exact congrArg (· :: []) (packWord0_eq_or .mul rd ra rb)
  · exact writes_of_exec rfl ((mulsBlob_length _ _).trans ha) (by rw [val_mulsBlob, hbits])
  · exact writes_of_exec rfl ((mulBlob_length _ _).trans ha) (by rw [val_mulBlob hab, hbits])

end

section
/-!
The bit count and the division loop against numbers (rules R167, R169). The loop is an induction over its passes: with
n passes to go the divisor stands n − 1 bits up, the dividend left is below the divisor n bits up, and the quotient's low
n bits are still 0.
-/

namespace Sys2Proof.Machine

/-! ## The bit count -/

/-- bits(v) is the least n with v < 2^n (rule R169). -/
theorem bitsBlob_le_iff (v : Blob) (n : Nat) : bitsBlob v ≤ n ↔ val v < 2 ^ n := by
  unfold bitsBlob
  split_ifs with h
  · simp [h]
  · exact Nat.log2_lt h

theorem val_lt_two_pow_bitsBlob (v : Blob) : val v < 2 ^ bitsBlob v := (bitsBlob_le_iff v _).mp le_rfl

theorem lt_bitsBlob_iff (v : Blob) (n : Nat) : n < bitsBlob v ↔ 2 ^ n ≤ val v := by
  rw [← Nat.not_le, bitsBlob_le_iff, Nat.not_lt]

/-! ## A quotient bit -/

/-- Bit i of a value is a bit of its lowest limb … -/
theorem setBit_cons_of_lt (l : Word) (ls : Blob) {i : Nat} (h : i < 32) :
    setBit (l :: ls) i = (l ||| 1#32 <<< i) :: ls := by
  rw [setBit, Nat.div_eq_of_lt h, Nat.mod_eq_of_lt h, List.modify_zero_cons]

/-- … or bit i − 32 of the limbs above it. -/
theorem setBit_cons_of_le (l : Word) (ls : Blob) {i : Nat} (h : 32 ≤ i) :
    setBit (l :: ls) i = l :: setBit ls (i - 32) := by
  obtain ⟨j, rfl⟩ := Nat.exists_eq_add_of_le' h
  rw [setBit, Nat.add_div_right _ (by decide), Nat.add_mod_right, List.modify_succ_cons, Nat.add_sub_cancel, setBit]

/-- Setting bit i is setting bit i of the number, if the value's limbs have one (rule R167). -/
theorem val_setBit {q : Blob} {i : Nat} (hi : i < 32 * q.length) : val (setBit q i) = val q ||| 2 ^ i := by
  refine Nat.eq_of_testBit_eq fun k => ?_
  rw [Nat.testBit_or, Nat.testBit_two_pow]
  induction q generalizing i k with
  | nil => exact absurd hi (Nat.not_lt_zero i)
  | cons l ls ih =>
    rw [List.length_cons] at hi
    obtain hlow | hhigh := Nat.lt_or_ge i 32
    · rw [setBit_cons_of_lt l ls hlow, testBit_val_cons, testBit_val_cons]
      split_ifs with hk
      · rw [BitVec.getLsbD_or, ← BitVec.twoPow_eq, BitVec.getLsbD_twoPow, decide_eq_true hlow, Bool.true_and]
      · rw [decide_eq_false (by omega), Bool.or_false]
    · rw [setBit_cons_of_le l ls hhigh, testBit_val_cons, testBit_val_cons]
      split_ifs with hk
      · rw [decide_eq_false (by omega), Bool.or_false]
      · rw [ih (by omega)]
        congr 2
        rw [eq_iff_iff]
        omega

/-- A bit that is 0, with all bits below it, is added. -/
theorem val_setBit_of_dvd {q : Blob} {i : Nat} (hi : i < 32 * q.length) (hq : 2 ^ (i + 1) ∣ val q) :
    val (setBit q i) = val q + 2 ^ i := by
  obtain ⟨k, hk⟩ := hq
  rw [val_setBit hi, hk, Nat.two_pow_add_eq_or_of_lt (Nat.pow_lt_pow_succ one_lt_two)]

/-! ## The division loop -/

/-- Subtracting no more than is there borrows nothing. -/
theorem val_subBlob_of_le {a b : Blob} (hlen : a.length = b.length) (h : val b ≤ val a) :
    val (subBlob a b) = val a - val b := by
  rw [val_subBlob hlen, Nat.add_sub_assoc h, Nat.add_mod_left, Nat.mod_eq_of_lt ((Nat.sub_le _ _).trans_lt (val_lt a))]

/-- The loop of rule R167 with n passes to go adds the quotient to q and leaves the remainder. -/
theorem val_divLoop {d n : Nat} {num dvs q : Blob} (hd : 0 < d) (hlen : num.length = dvs.length)
    (hdvs : val dvs = d * 2 ^ n / 2) (hnum : val num < d * 2 ^ n) (hq : 2 ^ n ∣ val q) (hn : n ≤ 32 * q.length) :
    val (divLoop n num dvs q).1 = val q + val num / d ∧ val (divLoop n num dvs q).2 = val num % d := by
  induction n generalizing num dvs q with
  | zero =>
    rw [Nat.pow_zero, Nat.mul_one] at hnum
    exact ⟨by rw [divLoop, Nat.div_eq_of_lt hnum, Nat.add_zero], (Nat.mod_eq_of_lt hnum).symm⟩
  | succ n ih =>
    have hdvs' : val dvs = d * 2 ^ n := by rw [hdvs, Nat.pow_succ, ← Nat.mul_assoc, Nat.mul_div_cancel _ two_pos]
    have hshr : val (shrBlob dvs 1) = d * 2 ^ n / 2 := by rw [val_shrBlob, hdvs', Nat.pow_one]
    have hqn : 2 ^ n ∣ val q := (Nat.pow_dvd_pow 2 n.le_succ).trans hq
    have hcmp : cmpBlob num dvs = .lt ↔ val num < d * 2 ^ n := by
      rw [cmpBlob_eq_compare hlen, Nat.compare_eq_lt, hdvs']
    rw [divLoop]
    split_ifs with hlt
    · exact ih (by rw [shrBlob_length, hlen]) hshr (hcmp.mp hlt) hqn (Nat.le_of_succ_le hn)
    · obtain ⟨x, hx⟩ := Nat.exists_eq_add_of_le' (Nat.not_lt.mp (hcmp.not.mp hlt))
      have hsub : val (subBlob num dvs) = x := by
        rw [val_subBlob_of_le hlen (by omega), hx, hdvs', Nat.add_sub_cancel]
      have hset : val (setBit q n) = val q + 2 ^ n := val_setBit_of_dvd hn hq
      have hxlt : x < d * 2 ^ n := by
        rw [Nat.pow_succ, ← Nat.mul_assoc] at hnum
        omega
      obtain ⟨hquot, hrem⟩ := ih (num := subBlob num dvs) (q := setBit q n)
        (by rw [subBlob_length, shrBlob_length, hlen, Nat.min_self]) hshr (hsub ▸ hxlt)
        (hset ▸ (Nat.dvd_add_right hqn).mpr dvd_rfl) (by rw [setBit_length]; exact Nat.le_of_succ_le hn)
      rw [hquot, hrem, hsub, hset, hx, Nat.add_mul_mod_self_left, Nat.add_mul_div_left x _ hd]
      exact ⟨by ring, rfl⟩

/-- The divisor moved up to the dividend's bit count loses no bit (rule R167, step 4). -/
theorem val_shlBlob_of_bits {num dvs : Blob} (hlen : num.length = dvs.length) (hbits : bitsBlob dvs ≤ bitsBlob num) :
    val (shlBlob dvs (bitsBlob num - bitsBlob dvs)) = val dvs * 2 ^ (bitsBlob num - bitsBlob dvs) := by
  rw [val_shlBlob]
  refine Nat.mod_eq_of_lt ?_
  calc val dvs * 2 ^ (bitsBlob num - bitsBlob dvs)
      < 2 ^ bitsBlob dvs * 2 ^ (bitsBlob num - bitsBlob dvs) :=
        Nat.mul_lt_mul_of_pos_right (val_lt_two_pow_bitsBlob dvs) (Nat.two_pow_pos _)
    _ = 2 ^ bitsBlob num := by rw [← Nat.pow_add, Nat.add_sub_cancel' hbits]
    _ ≤ 2 ^ (32 * dvs.length) := Nat.pow_le_pow_right two_pos (hlen ▸ bitsBlob_le num)

/-- Rule R167 computes the floor quotient and the remainder. -/
theorem val_of_divBlob_eq_some {num dvs q r : Blob} (hlen : num.length = dvs.length)
    (h : divBlob num dvs = some (q, r)) : val q = val num / val dvs ∧ val r = val num % val dvs := by
  have hne : val dvs ≠ 0 := fun h0 => nomatch h.symm.trans ((divBlob_eq_none num dvs).mpr h0)
  have hpos : 0 < bitsBlob dvs := Nat.pos_of_ne_zero ((bitsBlob_eq_zero dvs).not.mpr hne)
  have hnum := val_lt_two_pow_bitsBlob num
  have hdvs : 2 ^ (bitsBlob dvs - 1) ≤ val dvs := (lt_bitsBlob_iff _ _).mp (Nat.sub_one_lt_of_lt hpos)
  rw [divBlob, if_neg hpos.ne'] at h
  dsimp only at h
  split_ifs at h with hbits
  · obtain ⟨rfl, rfl⟩ := Prod.mk.inj (Option.some.inj h)
    have hlt : val num < val dvs :=
      hnum.trans_le ((Nat.pow_le_pow_right two_pos (Nat.le_sub_one_of_lt hbits)).trans hdvs)
    exact ⟨by rw [val_zeroBlob, Nat.div_eq_of_lt hlt], (Nat.mod_eq_of_lt hlt).symm⟩
  · have hbits' := Nat.not_lt.mp hbits
    have hbelow : val num < val dvs * 2 ^ (bitsBlob num - bitsBlob dvs + 1) :=
      calc val num < 2 ^ bitsBlob num := hnum
        _ = 2 ^ (bitsBlob dvs - 1) * 2 ^ (bitsBlob num - bitsBlob dvs + 1) := by
          rw [← Nat.pow_add]
          congr 1
          omega
        _ ≤ _ := Nat.mul_le_mul_right _ hdvs
    have hshl : val (shlBlob dvs (bitsBlob num - bitsBlob dvs)) =
        val dvs * 2 ^ (bitsBlob num - bitsBlob dvs + 1) / 2 := by
      rw [val_shlBlob_of_bits hlen hbits', Nat.pow_succ, ← Nat.mul_assoc, Nat.mul_div_cancel _ two_pos]
    have hlimbs := bitsBlob_le num
    have hloop := val_divLoop (q := zeroBlob num.length) (Nat.pos_of_ne_zero hne) (by rw [shlBlob_length, hlen]) hshl
      hbelow (by rw [val_zeroBlob]; exact dvd_zero _) (by rw [zeroBlob_length]; omega)
    rwa [Option.some.inj h, val_zeroBlob, Nat.zero_add] at hloop

end Sys2Proof.Machine

open Sys2Proof Sys2Proof.Machine Sys2Proof.Claims

/-- Settles O30: DIV ends by DivZero exactly for a zero divisor, and otherwise writes the two results of `divBlob`. -/
theorem divComputesFloorDivision : Obligations.DivComputesFloorDivision := by
  intro s rd ra rb hinv
  have ha := hinv.reg_limbs ra
  have hab : (s.reg ra).length = (s.reg rb).length := ha.trans (hinv.reg_limbs rb).symm
  have hzero := divBlob_eq_none (s.reg ra) (s.reg rb)
  refine ⟨congrArg (· :: []) (packWord0_eq_or .div rd ra rb), ?_⟩
  rcases execDiv_cases rd ra rb s with ⟨hdiv, hexec⟩ | ⟨q, r, hdiv, hexec⟩
  · exact ⟨fun hb => absurd (hzero.mp hdiv) hb, fun _ => hexec⟩
  · refine ⟨fun _ => ?_, fun hb => nomatch hdiv.symm.trans (hzero.mpr hb)⟩
    obtain ⟨hqlen, hrlen⟩ := divBlob_length _ _ _ _ hab hdiv
    obtain ⟨hq, hr⟩ := val_of_divBlob_eq_some hab hdiv
    have hqblob : blob s.cfg.limbs (val q) = q := by rw [← ha, ← hqlen, blob_val]
    have hrblob : blob s.cfg.limbs (val r) = r := by rw [← ha, ← hrlen, blob_val]
    rw [← hq, ← hr, hqblob, hrblob]
    exact hexec

/-- Settles O32: the count of `bitsBlob` is the least n with the value below 2^n. -/
theorem bitsIsOnePastTheHighestBit : Obligations.BitsIsOnePastTheHighestBit := by
  intro s ra hinv
  have hbits : 32 * (s.reg ra).length = bitsN s := by rw [hinv.reg_limbs, Config.limbs_mul, bitsN]
  refine ⟨congrArg (· :: []) (packWord0_ra .bits ra), bitsBlob (s.reg ra), hbits ▸ bitsBlob_le _, rfl,
    (bitsBlob_eq_zero _).mpr, fun hne => ?_⟩
  have hpos : 1 ≤ bitsBlob (s.reg ra) := Nat.one_le_iff_ne_zero.mpr ((bitsBlob_eq_zero _).not.mpr hne)
  refine ⟨hpos, ?_, fun k hk => Nat.testBit_lt_two_pow ((bitsBlob_le_iff _ k).mp hk)⟩
  refine Nat.testBit_of_two_pow_le_and_two_pow_add_one_gt ((lt_bitsBlob_iff _ _).mp (Nat.sub_one_lt_of_lt hpos)) ?_
  rw [Nat.sub_add_cancel hpos]
  exact val_lt_two_pow_bitsBlob _

end

section
/-!
REM, which DIV alone writes and RDREM reads (rules R25, R168).
-/

namespace Sys2Proof.Machine

/-- A command other than DIV completes from a state with the same REM, or raises a fault (rules R25, R94). -/
theorem exec_cases_of_not_div {i : Instr} (hi : Claims.isDiv i = false) (s : State) :
    (∃ u : State, u.rem = s.rem ∧ exec i s = u.complete) ∨ ∃ c, exec i s = s.raiseFault c i := by
  cases i
  case div => exact nomatch hi
  case ldraw rd addr len =>
    rcases execLdraw_cases rd addr len s with ⟨-, h⟩ | ⟨-, -, h⟩ | ⟨-, -, h⟩
    · exact .inr ⟨_, h⟩
    · exact .inl ⟨_, s.setReg_rem .., h⟩
    · exact .inr ⟨_, h⟩
  case hexdec rd addr len =>
    rcases execHexdec_cases rd addr len s with ⟨-, h⟩ | ⟨-, h⟩
    · exact .inl ⟨_, s.setReg_rem .., h⟩
    · exact .inr ⟨_, h⟩
  case straw ra addr =>
    rcases execStraw_cases ra addr s with ⟨-, h⟩ | ⟨-, h⟩
    · exact .inl ⟨_, s.memWrite_rem .., h⟩
    · exact .inr ⟨_, h⟩
  case hexenc ra addr =>
    rcases execHexenc_cases ra addr s with ⟨-, h⟩ | ⟨-, h⟩
    · exact .inl ⟨_, s.memWrite_rem .., h⟩
    · exact .inr ⟨_, h⟩
  case trunc256 ra addr =>
    rcases execTrunc256_cases ra addr s with ⟨-, h⟩ | ⟨-, h⟩
    · exact .inl ⟨_, s.memWrite_rem .., h⟩
    · exact .inr ⟨_, h⟩
  all_goals
    refine .inl ⟨_, ?_, rfl⟩
    rfl

/-- REM is written by DIV alone (rule R25). -/
theorem rem_of_exec {i : Instr} {s t : State} (hi : Claims.isDiv i = false) (h : exec i s = .next t) :
    t.rem = s.rem := by
  rcases exec_cases_of_not_div hi s with ⟨u, hu, he⟩ | ⟨c, he⟩ <;> rw [he] at h
  · rw [State.complete_eq_next] at h
    exact h ▸ hu
  · rw [State.raiseFault_eq_next] at h
    exact h ▸ s.faultEntry_rem c i.word0

end Sys2Proof.Machine

open Sys2Proof Sys2Proof.Machine Sys2Proof.Claims

/-- Settles O31: no other command writes REM, by `rem_of_exec`; DIV leaves the remainder in it, which is a
value of N bits, or leaves it alone. -/
theorem rdremReadsTheLastRemainder : Obligations.RdremReadsTheLastRemainder := by
  refine ⟨fun c => val_zeroBlob c.limbs, fun _ _ _ hi h => rem_of_exec hi h, fun s rd rq ra rb hinv =>
    ⟨congrArg (· :: []) (packWord0_rd .rdrem rd), writes_of_exec rfl hinv.rem_limbs rfl, ?_⟩⟩
  obtain ⟨-, hdiv, hzero⟩ := divComputesFloorDivision s rq ra rb hinv
  by_cases hb : val (s.reg rb) = 0
  · refine ⟨_, _, hzero hb, rfl, ?_⟩
    rw [if_pos hb]
    exact congrArg val (State.reg_setReg_same s rd s.rem)
  · have hlt : val (s.reg ra) % val (s.reg rb) < 2 ^ (32 * s.cfg.limbs) :=
      (Nat.mod_le _ _).trans_lt (hinv.reg_limbs ra ▸ val_lt (s.reg ra))
    refine ⟨_, _, hdiv hb, rfl, ?_⟩
    rw [if_neg hb]
    exact (congrArg val (State.reg_setReg_same ..)).trans (by rw [val_blob, Nat.mod_eq_of_lt hlt])

end

section
/-!
The text of a value (rules R200, R202). The raw bytes are the number in base 256 and their nibbles are it in base 16;
HEXENC writes the nibbles, the highest first, each as its character.
-/

namespace Sys2Proof.Machine

/-! ## Bytes and nibbles as digits of a number -/

theorem sumBytes_eq_ofDigits (bs : List Byte) :
    Claims.sumBytes bs.length (fun j => bs.getD j 0#8) = Nat.ofDigits 256 (bs.map BitVec.toNat) := by
  induction bs with
  | nil => rfl
  | cons b bs ih =>
    rw [List.map_cons, Nat.ofDigits_cons, ← ih, List.length_cons, sumBytes_succ]
    rfl

theorem val_eq_ofDigits_raw (v : Blob) : val v = Nat.ofDigits 256 ((raw v).map BitVec.toNat) := by
  rw [val_eq_sumBytes_raw, sumBytes_eq_ofDigits]

/-- The nibbles of bytes, least significant first. -/
def nibbles (bs : List Byte) : List Nat := bs.flatMap fun b => [b.toNat % 16, b.toNat / 16]

theorem lt_of_mem_nibbles {bs : List Byte} {d : Nat} (h : d ∈ nibbles bs) : d < 16 := by
  simp only [nibbles, List.mem_flatMap, List.mem_cons, List.not_mem_nil, or_false] at h
  obtain ⟨b, -, rfl | rfl⟩ := h <;> omega

theorem ofDigits_nibbles (bs : List Byte) :
    Nat.ofDigits 16 (nibbles bs) = Nat.ofDigits 256 (bs.map BitVec.toNat) := by
  induction bs with
  | nil => rfl
  | cons b bs ih =>
    rw [List.map_cons, Nat.ofDigits_cons, ← ih]
    simp only [nibbles, List.flatMap_cons, List.cons_append, List.nil_append, Nat.ofDigits_cons]
    omega

/-- A digit of a number in base p: what is left of it above the lower digits, mod p. -/
theorem getElem?_eq_ofDigits_div_pow_mod {p : Nat} {ds : List Nat} (hds : ∀ d ∈ ds, d < p) {k : Nat}
    (hk : k < ds.length) : ds[k]? = some (Nat.ofDigits p ds / p ^ k % p) := by
  have hlt : ds[k] < p := hds _ (List.getElem_mem hk)
  rw [Nat.ofDigits_div_pow_eq_ofDigits_drop k (Nat.zero_lt_of_lt hlt) ds hds, List.drop_eq_getElem_cons hk,
    Nat.ofDigits_cons, Nat.add_mul_mod_self_left, Nat.mod_eq_of_lt hlt, List.getElem?_eq_getElem hk]

/-! ## The text -/

theorem hexText_eq_map_nibbles (v : Blob) : hexText v = (nibbles (raw v)).reverse.map hexChar := by
  rw [hexText, nibbles, List.reverse_flatMap, List.map_flatMap]
  rfl

theorem nibbles_raw_length (v : Blob) : (nibbles (raw v)).length = 8 * v.length := by
  rw [← hexText_length, hexText_eq_map_nibbles, List.length_map, List.length_reverse]

theorem ofDigits_nibbles_raw (v : Blob) : Nat.ofDigits 16 (nibbles (raw v)) = val v := by
  rw [ofDigits_nibbles, val_eq_ofDigits_raw]

/-- Character k of the text is the digit 16^(2·NB − 1 − k) of the value (rule R202). -/
theorem hexText_getElem? {v : Blob} {k : Nat} (hk : k < 8 * v.length) :
    (hexText v)[k]? = some (hexChar (val v / 16 ^ (8 * v.length - 1 - k) % 16)) := by
  have hlen := nibbles_raw_length v
  rw [hexText_eq_map_nibbles, List.getElem?_map, List.getElem?_reverse (by omega), hlen,
    getElem?_eq_ofDigits_div_pow_mod (fun _ => lt_of_mem_nibbles) (by omega), ofDigits_nibbles_raw, Option.map_some]

theorem hexChar_eq_ite (d : Nat) :
    hexChar d = if d ≤ 9 then BitVec.ofNat 8 (0x30 + d) else BitVec.ofNat 8 (0x57 + d) := by
  rw [hexChar, show 0x61 + d - 10 = 0x57 + d by omega]

/-- 2·NB, the length of a value's text, is 8 characters a limb (rule R5). -/
theorem bitsN_div_four (s : State) : Claims.bitsN s / 4 = 8 * s.cfg.limbs := by
  rw [Claims.bitsN, ← Config.limbs_mul]
  omega

theorem State.Inv.hexText_reg_length {s : State} (hinv : s.Inv) (r : Reg) :
    (hexText (s.reg r)).length = Claims.bitsN s / 4 := by
  rw [hexText_length, hinv.reg_limbs, bitsN_div_four]

/-- Twice the raw byte count, by which HEXENC checks its range (rules R5, R202). -/
theorem two_mul_rawBytes (s : State) : 2 * s.cfg.rawBytes = Claims.bitsN s / 4 := by
  rw [Config.rawBytes_eq, bitsN_div_four]
  omega

end Sys2Proof.Machine

open Sys2Proof Sys2Proof.Machine Sys2Proof.Claims

/-- Settles O34: in range HEXENC stores `hexText`, whose characters are the digits of the value by `hexText_getElem?`;
out of range it raises the fault. -/
theorem hexencWritesTheDigits : Obligations.HexencWritesTheDigits := by
  intro s ra addr hinv
  refine ⟨congrArg (· :: _) (packWord0_ra .hexenc ra), ?_⟩
  rw [← two_mul_rawBytes]
  rcases execHexenc_cases ra addr s with ⟨hin, h⟩ | ⟨hout, h⟩
  · refine ⟨fun hout => absurd hout (Nat.not_lt.mpr hin), fun _ => ?_⟩
    have hlen : (hexText (s.reg ra)).length = 2 * s.cfg.rawBytes := by
      rw [hinv.hexText_reg_length, two_mul_rawBytes]
    refine stores_of_exec hinv h hlen fun k hk => ?_
    rw [← hlen, hexText_length] at hk ⊢
    rw [hexText_getElem? hk, hexChar_eq_ite]
  · exact ⟨fun _ => raises_of_exec h, fun hin => absurd hout (Nat.not_lt.mpr hin)⟩

end

section
/-!
How HEXDEC cuts a text and what it makes of the digit run (rules R203, R204). Every text has a cut, the codec's walk
finds the digits of any cut, and packing them into NB bytes is their number mod 2^N.
-/

namespace Sys2Proof.Machine

open Claims

/-! ## The number of a digit run -/

theorem digitValue_lt {c : Byte} {d : Nat} (h : digitValue c = some d) : d < 16 := by
  unfold digitValue at h
  split_ifs at h <;> (obtain rfl := Option.some.inj h; omega)

theorem digitValue_getD_lt (c : Byte) : (digitValue c).getD 0 < 16 := by
  cases h : digitValue c with
  | none => decide
  | some d => exact digitValue_lt h

theorem hexNumber_eq_ofDigits (digits : List Byte) :
    hexNumber digits = Nat.ofDigits 16 (digits.map fun c => (digitValue c).getD 0).reverse := by
  rw [Nat.ofDigits_eq_foldr, List.foldr_reverse, List.foldl_map, hexNumber]
  simp only [Nat.cast_id, Nat.add_comm]

/-- Packing nibbles into bytes keeps the number, whether they are even or odd in count (rule R203). -/
theorem ofDigits_packNibbles {ds : List Nat} (h : ∀ d ∈ ds, d < 16) :
    Nat.ofDigits 256 ((packNibbles ds).map BitVec.toNat) = Nat.ofDigits 16 ds := by
  induction ds using packNibbles.induct with
  | case1 => rfl
  | case2 lo =>
    have hlo := h lo (by simp)
    rw [packNibbles, List.map_singleton, Nat.ofDigits_singleton, Nat.ofDigits_singleton, BitVec.toNat_ofNat]
    omega
  | case3 lo hi rest ih =>
    have hlo := h lo (by simp)
    have hhi := h hi (by simp)
    rw [packNibbles, List.map_cons, Nat.ofDigits_cons, ih fun d hd => h d (by simp [hd]), Nat.ofDigits_cons,
      Nat.ofDigits_cons, BitVec.toNat_ofNat]
    omega

/-- Filling or cutting to n bytes is the number mod 2^(8n) (rule R203). -/
theorem ofDigits_fillBytes (n : Nat) (bs : List Byte) :
    Nat.ofDigits 256 ((fillBytes n bs).map BitVec.toNat) = Nat.ofDigits 256 (bs.map BitVec.toNat) % 256 ^ n := by
  have hlt : ∀ d ∈ bs.map BitVec.toNat, d < 256 := by
    simp only [List.mem_map]
    rintro _ ⟨b, -, rfl⟩
    exact b.isLt
  rw [Nat.ofDigits_mod_pow_eq_ofDigits_take n (by decide) _ hlt, fillBytes, List.map_append, List.map_replicate,
    List.map_take]
  exact Nat.ofDigits_append_replicate_zero _

/-- The closed form of rule R204, from the digits the walk finds. -/
theorem val_hexParse {text digits : List Byte} (n : Nat)
    (h : hexDigits text = digits.map fun c => (digitValue c).getD 0) :
    val (hexParse (4 * n) text) = hexNumber digits % 2 ^ (32 * n) := by
  have hlt : ∀ d ∈ (hexDigits text).reverse, d < 16 := by
    simp only [h, List.mem_reverse, List.mem_map]
    rintro _ ⟨c, -, rfl⟩
    exact digitValue_getD_lt c
  rw [hexParse, val_fromRaw _ (by simp), sumBytes_eq_ofDigits, ofDigits_fillBytes, ofDigits_packNibbles hlt, h,
    ← hexNumber_eq_ofDigits, show 256 = 2 ^ 8 by rfl, ← Nat.pow_mul, ← Nat.mul_assoc]

/-! ## The codec's walk finds the digits of a cut -/

/-- Dropping while p holds drops a beginning of such elements, and no more if the rest begins with none. -/
theorem dropWhile_append_eq_right {α : Type} {p : α → Bool} {l r : List α} (hl : ∀ a ∈ l, p a = true)
    (hr : ∀ a rest, r = a :: rest → ¬p a = true) : (l ++ r).dropWhile p = r := by
  rw [List.dropWhile_append_of_pos hl]
  cases r with
  | nil => rfl
  | cons a r => exact List.dropWhile_cons_of_neg (hr a r rfl)

theorem dropPrefix_of_cons_cons {c1 : Byte} (h : c1 = 0x78#8 ∨ c1 = 0x58#8) (rest : List Byte) :
    dropPrefix (0x30#8 :: c1 :: rest) = rest := if_pos ⟨rfl, h⟩

theorem dropPrefix_eq_self {text : List Byte}
    (h : ∀ rest, text ≠ 0x30#8 :: 0x78#8 :: rest ∧ text ≠ 0x30#8 :: 0x58#8 :: rest) :
    dropPrefix text = text := by
  unfold dropPrefix
  split
  next c0 c1 rest =>
    refine if_neg ?_
    rintro ⟨rfl, rfl | rfl⟩
    · exact (h rest).1 rfl
    · exact (h rest).2 rfl
  next => rfl

theorem digitRun_append {digits tail : List Byte} (hrun : ∀ c ∈ digits, (digitValue c).isSome = true)
    (htail : ∀ c rest, tail = c :: rest → digitValue c = none) :
    digitRun (digits ++ tail) = digits.map fun c => (digitValue c).getD 0 := by
  induction digits with
  | nil =>
    cases tail with
    | nil => rfl
    | cons c rest => simp [digitRun, hexVal_eq_digitValue, htail c rest rfl]
  | cons c cs ih =>
    obtain ⟨d, hd⟩ := Option.isSome_iff_exists.mp (hrun c (by simp))
    simp [digitRun, hexVal_eq_digitValue, hd, ih fun a ha => hrun a (by simp [ha])]

theorem hexDigits_eq_of_hexText {text ws pre digits tail : List Byte} (h : HexText text ws pre digits tail) :
    hexDigits text = digits.map fun c => (digitValue c).getD 0 := by
  have hspace : text.dropWhile isSpace = pre ++ (digits ++ tail) := by
    rw [h.cut, List.append_assoc, List.append_assoc]
    refine dropWhile_append_eq_right (fun c hc => (isSpace_iff_isBlank c).mpr (h.blanks c hc)) fun c rest hc => ?_
    rw [isSpace_iff_isBlank]
    exact h.all_blanks c rest (by rw [List.append_assoc, hc])
  have hprefix : dropPrefix (pre ++ (digits ++ tail)) = digits ++ tail := by
    rcases h.mark with hpre | rfl | rfl
    · rw [hpre]
      exact dropPrefix_eq_self (h.mark_taken hpre)
    · exact dropPrefix_of_cons_cons (.inl rfl) _
    · exact dropPrefix_of_cons_cons (.inr rfl) _
  rw [hexDigits, hspace, hprefix, digitRun_append h.run h.run_ends]

/-! ## Every text has a cut -/

/-- Every list is a beginning whose elements satisfy p, and a rest that begins with none that does. -/
theorem exists_span {α : Type} (p : α → Bool) (l : List α) :
    ∃ front rest, l = front ++ rest ∧ (∀ a ∈ front, p a = true) ∧ ∀ a r, rest = a :: r → p a = false := by
  refine ⟨l.takeWhile p, l.dropWhile p, List.takeWhile_append_dropWhile.symm, fun a ha => List.mem_takeWhile_imp ha,
    fun a r h => ?_⟩
  have hhead := List.head?_dropWhile_not p l
  rwa [h] at hhead

theorem exists_prefix (body : List Byte) : ∃ pre rest, body = pre ++ rest ∧ IsPrefix pre ∧
    (pre = [] → ∀ r, rest ≠ 0x30#8 :: 0x78#8 :: r ∧ rest ≠ 0x30#8 :: 0x58#8 :: r) := by
  by_cases h : ∃ r, body = 0x30#8 :: 0x78#8 :: r ∨ body = 0x30#8 :: 0x58#8 :: r
  · obtain ⟨r, rfl | rfl⟩ := h
    · exact ⟨[0x30#8, 0x78#8], r, rfl, .inr (.inl rfl), nofun⟩
    · exact ⟨[0x30#8, 0x58#8], r, rfl, .inr (.inr rfl), nofun⟩
  · exact ⟨[], body, rfl, .inl rfl, fun _ r => ⟨fun hr => h ⟨r, .inl hr⟩, fun hr => h ⟨r, .inr hr⟩⟩⟩

theorem exists_hexText (text : List Byte) : ∃ ws pre digits tail, HexText text ws pre digits tail := by
  obtain ⟨ws, body, htext, hws, hbody⟩ := exists_span isSpace text
  obtain ⟨pre, rest, rfl, hmark, htaken⟩ := exists_prefix body
  obtain ⟨digits, tail, rfl, hrun, hends⟩ := exists_span (fun c => (digitValue c).isSome) rest
  refine ⟨ws, pre, digits, tail, by simpa only [List.append_assoc] using htext,
    fun c hc => (isSpace_iff_isBlank c).mp (hws c hc), fun c r hc => ?_, hmark, htaken, hrun,
    fun c r hc => by simpa using hends c r hc⟩
  rw [← isSpace_iff_isBlank, hbody c r (List.append_assoc .. ▸ hc)]
  decide

/-! ## HEXDEC on a cut text -/

theorem State.memRead_eq_map_range (s : State) (a n : Nat) :
    s.memRead a n = (List.range n).map fun j => s.tbufByte (a + j) := by
  refine List.ext_getElem? fun j => ?_
  by_cases hj : j < n
  · rw [State.memRead_getElem? s a n j hj, List.getElem?_map, List.getElem?_range hj, Option.map_some]
  · simp [hj]

/-- HEXDEC in range writes the number of the digit run of any cut of its text (rules R203, R204). -/
theorem hexdec_writes_of_hexText {s : State} {addr len : Word} {ws pre digits tail : List Byte} (rd : Reg)
    (hin : addr.toNat + len.toNat ≤ s.cfg.tbufBytes)
    (h : HexText (s.memRead addr.toNat len.toNat) ws pre digits tail) :
    Writes (.hexdec rd addr len) s rd (hexNumber digits % 2 ^ bitsN s) := by
  rcases execHexdec_cases rd addr len s with ⟨-, hexec⟩ | ⟨hout, -⟩
  · rw [Config.rawBytes_eq] at hexec
    refine writes_of_exec hexec (by rw [hexParse_length]; omega) ?_
    rw [bitsN, ← Config.limbs_mul]
    exact val_hexParse _ (hexDigits_eq_of_hexText h)
  · exact absurd hin (Nat.not_le.mpr hout)

end Sys2Proof.Machine

open Sys2Proof Sys2Proof.Machine Sys2Proof.Claims

/-- Settles O35: the text has a cut by `exists_hexText`, and HEXDEC writes the number of its digit run; out of range it
raises the fault. -/
theorem hexdecReadsTheDigitRun : Obligations.HexdecReadsTheDigitRun := by
  intro s rd addr len _
  refine ⟨congrArg (· :: _) (packWord0_rd .hexdec rd), fun hout => ?_, fun hin => ?_⟩
  · rcases execHexdec_cases rd addr len s with ⟨hin, -⟩ | ⟨-, h⟩
    · exact absurd hout (Nat.not_lt.mpr hin)
    · exact raises_of_exec h
  · obtain ⟨ws, pre, digits, tail, h⟩ := exists_hexText (s.memRead addr.toNat len.toNat)
    exact ⟨ws, pre, digits, tail, s.memRead_eq_map_range .. ▸ h, hexdec_writes_of_hexText rd hin h⟩

end

section
/-!
HEXDEC after HEXENC (rule R205). The text HEXENC writes is all digits and its number is the value, so blanks, a "0x",
the text and a byte that is no digit are a cut whose digit run is the text.
-/

namespace Sys2Proof.Machine

open Claims

/-! ## The text is a digit run -/

theorem digitValue_hexChar : ∀ {d : Nat}, d < 16 → digitValue (hexChar d) = some d := by decide

theorem isSome_of_mem_hexText {v : Blob} {c : Byte} (h : c ∈ hexText v) : (digitValue c).isSome = true := by
  simp only [hexText_eq_map_nibbles, List.mem_map, List.mem_reverse] at h
  obtain ⟨d, hd, rfl⟩ := h
  rw [digitValue_hexChar (lt_of_mem_nibbles hd), Option.isSome_some]

theorem hexNumber_hexText (v : Blob) : hexNumber (hexText v) = val v := by
  have hdigits : (nibbles (raw v)).map (fun d => (digitValue (hexChar d)).getD 0) = nibbles (raw v) :=
    (List.map_congr_left fun d hd => by rw [digitValue_hexChar (lt_of_mem_nibbles hd), Option.getD_some, id]).trans
      (List.map_id _)
  rw [hexNumber_eq_ofDigits, hexText_eq_map_nibbles, List.map_map, List.map_reverse, List.reverse_reverse]
  exact (congrArg _ hdigits).trans (ofDigits_nibbles_raw v)

/-! ## The text stands in a cut -/

theorem not_isBlank_of_digit {c : Byte} (h : (digitValue c).isSome = true) : ¬IsBlank c := by
  rintro (rfl | rfl | rfl | rfl | rfl | rfl) <;> exact absurd h (by decide)

/-- The digits of the text are no blanks, and its second character is no x: the text after blanks and a "0x" is the
whole digit run (rules R203, R205). -/
theorem hexText_cut {v : Blob} {ws pre tail : List Byte} (hv : 0 < v.length) (hws : ∀ c ∈ ws, IsBlank c)
    (hpre : IsPrefix pre) (htail : ∀ c rest, tail = c :: rest → digitValue c = none) :
    HexText (ws ++ pre ++ hexText v ++ tail) ws pre (hexText v) tail := by
  have hlen := hexText_length v
  match htext : hexText v with
  | [] | [_] => simp only [htext, List.length_cons, List.length_nil] at hlen; omega
  | c0 :: c1 :: cs =>
    have hrun : ∀ c ∈ c0 :: c1 :: cs, (digitValue c).isSome = true := fun c hc =>
      isSome_of_mem_hexText (htext ▸ hc)
    have hsecond : ∀ (x : Byte) (rest : List Byte), digitValue x = none →
        c0 :: c1 :: cs ++ tail ≠ 0x30#8 :: x :: rest := by
      intro x rest hx hc
      obtain ⟨-, htl⟩ := List.cons.inj hc
      obtain ⟨rfl, -⟩ := List.cons.inj htl
      exact Option.isSome_iff_ne_none.mp (hrun c1 (by simp)) hx
    refine ⟨rfl, hws, fun c rest hc => not_isBlank_of_digit ?_, hpre,
      fun _ rest => ⟨hsecond _ rest (by decide), hsecond _ rest (by decide)⟩, hrun, htail⟩
    rcases hpre with rfl | rfl | rfl <;> obtain ⟨rfl, -⟩ := List.cons.inj hc
    · exact hrun c0 (by simp)
    · decide
    · decide

theorem hexParse_hexText {v : Blob} {ws pre tail : List Byte} (hv : 0 < v.length) (hws : ∀ c ∈ ws, IsBlank c)
    (hpre : IsPrefix pre) (htail : ∀ c rest, tail = c :: rest → digitValue c = none) :
    hexParse (4 * v.length) (ws ++ pre ++ hexText v ++ tail) = v := by
  refine eq_of_val_eq (by rw [hexParse_length]; omega) ?_
  rw [val_hexParse _ (hexDigits_eq_of_hexText (hexText_cut hv hws hpre htail)), hexNumber_hexText,
    Nat.mod_eq_of_lt (val_lt v)]

/-! ## The commands -/

theorem State.memRead_add (s : State) (a m n : Nat) : s.memRead a (m + n) = s.memRead a m ++ s.memRead (a + m) n := by
  simp only [State.memRead_eq_map_range, List.range_add, List.map_append, List.map_map, Nat.add_assoc]
  rfl

/-- After HEXENC the 2·NB bytes at its address are the text of its register (rule R202). -/
theorem exec_hexenc_text {s : State} {ra : Reg} {addr : Word} (hinv : s.Inv)
    (hin : addr.toNat + bitsN s / 4 ≤ s.cfg.tbufBytes) :
    ∃ t, exec (.hexenc ra addr) s = .next t ∧ t.cfg = s.cfg ∧
      t.memRead addr.toNat (bitsN s / 4) = hexText (s.reg ra) := by
  rw [← two_mul_rawBytes] at hin
  rcases execHexenc_cases ra addr s with ⟨-, h⟩ | ⟨hout, -⟩
  · have hbyte : ∀ j < (hexText (s.reg ra)).length,
        (hexText (s.reg ra))[j]? = some ((hexText (s.reg ra)).getD j 0#8) := fun j hj => by
      rw [List.getD_eq_getElem?_getD, List.getElem?_eq_getElem hj, Option.getD_some]
    obtain ⟨t, ht, hframe, hbytes⟩ := stores_of_exec (i := .hexenc ra addr) (base := addr.toNat) hinv h rfl hbyte
    refine ⟨t, ht, (congrArg State.cfg hframe :), ?_⟩
    rw [← hinv.hexText_reg_length ra]
    refine State.memRead_eq fun j hj => ?_
    rw [hbyte j hj, hbytes, if_pos (by omega), Nat.add_sub_cancel_left]
  · exact absurd hin (Nat.not_le.mpr hout)

/-- HEXDEC of blanks, an optional "0x", the text of v, and nothing or a byte that is no digit, writes the value of v
(rule R205). -/
theorem hexdec_writes_of_text {u : State} {base addr len : Word} {ws pre : List Byte} {v : Blob} (rd : Reg)
    (hv : v.length = u.cfg.limbs) (hws : ∀ c ∈ ws, IsBlank c) (hpre : IsPrefix pre)
    (haddr : base.toNat + (ws ++ pre).length = addr.toNat)
    (hfront : u.memRead base.toNat (ws ++ pre).length = ws ++ pre)
    (htext : u.memRead addr.toNat (bitsN u / 4) = hexText v)
    (hlen : addr.toNat + bitsN u / 4 ≤ base.toNat + len.toNat) (hin : base.toNat + len.toNat ≤ u.cfg.tbufBytes)
    (hafter : base.toNat + len.toNat = addr.toNat + bitsN u / 4 ∨
      digitValue (u.tbufByte (addr.toNat + bitsN u / 4)) = none) :
    Writes (.hexdec rd base len) u rd (val v) := by
  obtain ⟨k, hk⟩ : ∃ k, len.toNat = (ws ++ pre).length + bitsN u / 4 + k := Nat.exists_eq_add_of_le (by omega)
  have hread : u.memRead base.toNat len.toNat =
      ws ++ pre ++ hexText v ++ u.memRead (addr.toNat + bitsN u / 4) k := by
    rw [hk, State.memRead_add, State.memRead_add, hfront, haddr, htext, ← Nat.add_assoc, haddr]
  have htail : ∀ c rest, u.memRead (addr.toNat + bitsN u / 4) k = c :: rest → digitValue c = none := by
    intro c rest hc
    cases k with
    | zero => cases hc
    | succ k =>
      obtain ⟨rfl, -⟩ := List.cons.inj hc
      exact hafter.resolve_left (by omega)
  have hlimbs := Config.five_le_limbs u.cfg
  have hlt : val v < 2 ^ bitsN u := by
    rw [bitsN, ← Config.limbs_mul, ← hv]
    exact val_lt v
  have hcut := hexText_cut (v := v) (by omega) hws hpre htail
  rw [← Nat.mod_eq_of_lt hlt, ← hexNumber_hexText]
  exact hexdec_writes_of_hexText rd hin (hread ▸ hcut)

end Sys2Proof.Machine

open Sys2Proof Sys2Proof.Machine Sys2Proof.Claims

/-- Settles O36: the list form is `hexParse_hexText`. HEXENC leaves the text of V[ra] at addr, and HEXDEC of it, with
blanks, a "0x" and a byte after it or with none of them, writes its value, which has the limbs of V[ra]. -/
theorem hexRoundTrip : Obligations.HexRoundTrip := by
  refine ⟨fun v ws pre tail hv hws hpre htail => hexParse_hexText hv hws hpre htail,
    fun s ra rd addr len hinv hlen hin => ?_, fun s ra addr hinv hin => ?_⟩
  · obtain ⟨t, ht, hcfg, htext⟩ := exec_hexenc_text (ra := ra) hinv hin
    have hbits : bitsN t = bitsN s := by rw [bitsN, hcfg, bitsN]
    have hlimbs : (s.reg ra).length = t.cfg.limbs := by rw [hinv.reg_limbs, hcfg]
    have hwrites : Writes (.hexdec rd addr len) t rd (val (s.reg ra)) :=
      hexdec_writes_of_text (ws := []) (pre := []) rd hlimbs nofun (.inl rfl) rfl rfl (hbits ▸ htext)
        (by omega) (by rwa [hcfg, hlen]) (.inl (by omega))
    refine ⟨t, _, ht, hwrites, (State.reg_setReg_same ..).trans ?_⟩
    rw [← hlimbs, blob_val]
  · obtain ⟨t, ht, -, htext⟩ := exec_hexenc_text (ra := ra) hinv hin
    refine ⟨t, ht, fun u rd base len ws pre hu hcfg hsame hws hpre haddr hfront hlen hrange hafter => ?_⟩
    have hbits : bitsN u = bitsN s := by rw [bitsN, hcfg, bitsN]
    rw [← hbits] at hsame htext hlen hafter
    have hcopy : u.memRead addr.toNat (bitsN u / 4) = t.memRead addr.toNat (bitsN u / 4) := by
      simp only [State.memRead_eq_map_range]
      exact List.map_congr_left fun j hj => hsame j (List.mem_range.mp hj)
    exact hexdec_writes_of_text rd (by rw [hinv.reg_limbs, hcfg]) hws hpre haddr
      ((u.memRead_eq_map_range ..).trans hfront) (hcopy.trans htext) hlen hrange hafter

end

section
/-!
TRUNC256 (rule R232). The low raw bytes of a number sum to the number modulo a power of two, so an engine that holds
them and reads them with LDRAW holds the truncated value.
-/

namespace Sys2Proof.Machine

/-- The n low bytes of a number sum to what it leaves modulo 2^(8n) (rules R55, R232). -/
theorem sumBytes_ofNat_div (n x : Nat) :
    Claims.sumBytes n (fun j => BitVec.ofNat 8 (x / 2 ^ (8 * j))) = x % 2 ^ (8 * n) := by
  induction n with
  | zero => rw [Nat.mul_zero, Nat.pow_zero, Nat.mod_one]; rfl
  | succ n ih =>
    rw [Claims.sumBytes] at ih ⊢
    rw [Finset.sum_range_succ, ih, BitVec.toNat_ofNat, Nat.mul_succ, Nat.pow_add, Nat.mod_mul,
      Nat.mul_comm (2 ^ (8 * n))]

/-- LDRAW of NB bytes that are the low bytes of a number writes that number modulo 2^N (rule R113). -/
theorem ldraw_writes_mod {s : State} {addr len : Word} {n x : Nat} (rd : Reg) (hinv : s.Inv)
    (hn : Claims.bitsN s / 8 = n) (hlen : len.toNat = n) (hin : addr.toNat + n ≤ s.cfg.tbufBytes)
    (hbytes : ∀ j < n, s.tbufByte (addr.toNat + j) = BitVec.ofNat 8 (x / 2 ^ (8 * j))) :
    Claims.Writes (.ldraw rd addr len) s rd (x % 2 ^ (8 * n)) := by
  obtain ⟨-, -, -, hwrites⟩ := ldrawReadsRawBytes s rd addr len hinv
  have hsum : (Claims.sumBytes n fun j => s.tbufByte (addr.toNat + j)) = x % 2 ^ (8 * n) := by
    rw [← sumBytes_ofNat_div]
    exact Finset.sum_congr rfl fun j hj => by simp only [hbytes j (Finset.mem_range.mp hj)]
  rw [hn, hsum] at hwrites
  exact hwrites hlen hin

/-- Word0 of a TRUNC256 has opcode 0x30 (rule R86). -/
theorem trunc256_word0_opcode (ra : Reg) : (0x30000000#32 ||| Claims.atRa ra).toNat / 2 ^ 24 = 0x30 := by
  rw [← opcOf_eq_div]
  exact packWord0_ra .trunc256 ra ▸ opcOf_packWord0 .trunc256 0 ra 0

end Sys2Proof.Machine

open Sys2Proof Sys2Proof.Machine Sys2Proof.Claims

/-- Settles O38: at another width opcode 0x30 is of a disabled class; LDRAW of the 32 low bytes writes the value mod
2^256 by `ldraw_writes_mod`; and in range TRUNC256 writes the first 32 of the 64 raw bytes, whose byte j is byte j of
the value. -/
theorem trunc256WritesTheLowHalf : Obligations.Trunc256WritesTheLowHalf := by
  refine ⟨fun s ra ts hready hword hwidth => ?_, fun s t ra rd addr' _ ht _ hwidth hin hbytes => ?_,
    fun s ra addr hinv hwidth => ⟨congrArg (· :: _) (packWord0_ra .trunc256 ra), ?_⟩⟩
  · obtain ⟨-, hdisabled⟩ := disabledClassFaultsOnArrival
    exact hdisabled s _ ts hready hword hwidth (.inr (.inr (trunc256_word0_opcode ra)))
  · have hnb : bitsN t / 8 = 32 := by rw [bitsN, hwidth]; rfl
    exact ldraw_writes_mod rd ht hnb rfl hin hbytes
  · have hraw : (raw (s.reg ra)).length = 64 := by rw [hinv.raw_reg_length, Config.rawBytes, hwidth]; rfl
    rcases execTrunc256_cases ra addr s with ⟨hin, h⟩ | ⟨hout, h⟩
    · refine ⟨fun hout => absurd hout (Nat.not_lt.mpr hin), fun _ => ?_⟩
      refine stores_of_exec hinv h (by rw [List.length_take, hraw]; rfl) fun j hj => ?_
      rw [List.getElem?_take_of_lt hj, raw_getElem?_eq_val_byte _ (by rw [← raw_length, hraw]; omega)]
    · exact ⟨fun _ => raises_of_exec h, fun hin => absurd hout (Nat.not_lt.mpr hin)⟩

end

section
/-!
The decoder and the encoder undo each other (rules R80 to R87). The decoder takes a sound word0 and as many extension
words as its opcode asks for; the fields of word0 that its command uses, with its opcode, are all of word0, since every
other bit is reserved.
-/

namespace Sys2Proof

open Claims

/-! ## The words the decoder takes -/

theorem encode_length (i : Instr) : (encode i).length = i.op.words := by
  cases i <;> rfl

/-- A sound word0 and the extension words it asks for are a command, whatever words follow (rules R80, R82). -/
theorem decode_cons_append {w0 : Word} {ext : List Word} {op : Op} (hop : Op.ofWord0 w0 = some op)
    (hres : op.reservedSet w0 = false) (hlen : ext.length + 1 = op.words) (rest : List Word) :
    decode (w0 :: (ext ++ rest)) = .instr (op.instr w0 (ext.getD 0 0#32) (ext.getD 1 0#32)) rest := by
  simp only [decode, hop, hres, Bool.false_eq_true, if_false]
  cases hf : op.format with
  | r =>
    have hwords : op.words = 1 := congrArg Format.words hf
    obtain rfl := List.length_eq_zero_iff.mp (by omega : ext.length = 0)
    rfl
  | rx =>
    have hwords : op.words = 2 := congrArg Format.words hf
    obtain ⟨x1, rfl⟩ := List.length_eq_one_iff.mp (by omega : ext.length = 1)
    rfl
  | rxx =>
    have hwords : op.words = 3 := congrArg Format.words hf
    obtain ⟨x1, x2, rfl⟩ := List.length_eq_two.mp (by omega : ext.length = 2)
    rfl

/-- The decoder reads a command from such words only (rules R86, R87). -/
theorem exists_of_decode_eq_instr {words rest : List Word} {i : Instr} (h : decode words = .instr i rest) :
    ∃ w0 ext op, words = w0 :: (ext ++ rest) ∧ Op.ofWord0 w0 = some op ∧ op.reservedSet w0 = false ∧
      ext.length + 1 = op.words ∧ i = op.instr w0 (ext.getD 0 0#32) (ext.getD 1 0#32) := by
  obtain _ | ⟨w0, tail⟩ := words
  · cases h
  cases hop : Op.ofWord0 w0 with
  | none => simp [decode, hop] at h
  | some op =>
    cases hres : op.reservedSet w0 with
    | true => simp [decode, hop, hres] at h
    | false =>
      simp only [decode, hop, hres, Bool.false_eq_true, if_false] at h
      split at h
      · rename_i hf
        obtain ⟨rfl, rfl⟩ := Decoded.instr.inj h
        exact ⟨w0, [], op, rfl, hop, hres, (congrArg Format.words hf).symm, rfl⟩
      · rename_i x1 _ hf
        obtain ⟨rfl, rfl⟩ := Decoded.instr.inj h
        exact ⟨w0, [x1], op, rfl, hop, hres, (congrArg Format.words hf).symm, rfl⟩
      · rename_i x1 x2 _ hf
        obtain ⟨rfl, rfl⟩ := Decoded.instr.inj h
        exact ⟨w0, [x1, x2], op, rfl, hop, hres, (congrArg Format.words hf).symm, rfl⟩
      · cases h

/-! ## From a command to its words and back -/

theorem imm64Of_words (imm64 : BitVec 64) :
    imm64Of (BitVec.ofNat 32 imm64.toNat) (BitVec.ofNat 32 (imm64.toNat / 2 ^ 32)) = imm64 := by
  apply BitVec.eq_of_toNat_eq
  simp only [imm64Of, BitVec.toNat_ofNat]
  omega

/-- An opcode makes its command again of the words the encoder gives it (rules R81, R84). -/
theorem Instr.instr_word0_extWords (i : Instr) :
    i.op.instr i.word0 (i.extWords.getD 0 0#32) (i.extWords.getD 1 0#32) = i := by
  cases i
  case ldu64 rd imm64 =>
    exact congrArg₂ Instr.ldu64 (rdOf_packWord0 _ _ _ _) (imm64Of_words imm64)
  all_goals
    simp [Instr.op, Op.instr, Instr.word0, Instr.extWords, rdOf_packWord0, raOf_packWord0, rbOf_packWord0]

/-! ## From words to a command and back -/

/-- Word0 of the command an opcode makes of its words has that opcode and the fields its command uses (rule R86). -/
theorem Op.word0_instr (op : Op) (w0 x1 x2 : Word) : (op.instr w0 x1 x2).word0 =
    packWord0 op (bif usesRd op then rdOf w0 else 0) (bif usesRa op then raOf w0 else 0)
      (bif usesRb op then rbOf w0 else 0) := by
  cases op <;> rfl

/-- A field of word0 that lies in the mask of its opcode is 0 in a sound word0 (rule R87). -/
theorem Op.field_eq_zero {op : Op} {w : Word} {lo k : Nat} (hres : op.reservedSet w = false) (hle : lo + k ≤ 24)
    (hmask : ∀ j < k, op.mask.getLsbD (lo + j) = true) : w.toNat / 2 ^ lo % 2 ^ k = 0 := by
  by_contra hne
  exact absurd (Op.reservedSet_of_field hle hmask hne) (by simp [hres])

/-- A register field that its command uses is read from word0, and one it does not use is 0 there. -/
theorem val_bif_field {used : Bool} {r : Reg} {n : Nat} (hr : r.val = n) (hz : used = false → n = 0) :
    (bif used then r else 0 : Reg).val = n := by
  cases used
  · exact (hz rfl).symm
  · exact hr

/-- A sound word0 is its opcode and the fields its command uses (rules R81, R87). -/
theorem packWord0_of_sound {op : Op} {w : Word} (hcode : opcOf w = op.code) (hres : op.reservedSet w = false) :
    packWord0 op (bif usesRd op then rdOf w else 0) (bif usesRa op then raOf w else 0)
      (bif usesRb op then rbOf w else 0) = w := by
  have hlow : w.toNat / 2 ^ 0 % 2 ^ 12 = 0 := Op.field_eq_zero hres (by decide) op.mask_res
  have hrd := val_bif_field (used := usesRd op) (r := rdOf w) (n := w.toNat / 2 ^ 20 % 16)
    (by simp [rdOf, slice, Fin.ofNat]) fun h => Op.field_eq_zero hres (by decide) (Op.mask_rd h)
  have hra := val_bif_field (used := usesRa op) (r := raOf w) (n := w.toNat / 2 ^ 16 % 16)
    (by simp [raOf, slice, Fin.ofNat]) fun h => Op.field_eq_zero hres (by decide) (Op.mask_ra h)
  have hrb := val_bif_field (used := usesRb op) (r := rbOf w) (n := w.toNat / 2 ^ 12 % 16)
    (by simp [rbOf, slice, Fin.ofNat]) fun h => Op.field_eq_zero hres (by decide) (Op.mask_rb h)
  have hlt := w.isLt
  rw [opcOf_eq_div] at hcode
  apply BitVec.eq_of_toNat_eq
  rw [packWord0, hrd, hra, hrb, ← hcode, BitVec.toNat_ofNat]
  omega

/-- The extension words of the command an opcode makes of its words are those words (rules R82, R84). -/
theorem Op.extWords_instr {op : Op} {ext : List Word} (hlen : ext.length + 1 = op.words) (w0 : Word) :
    (op.instr w0 (ext.getD 0 0#32) (ext.getD 1 0#32)).extWords = ext := by
  cases op
  case ldu64 =>
    obtain ⟨x1, x2, rfl⟩ := List.length_eq_two.mp (Nat.succ.inj hlen)
    simp only [Op.instr, Instr.extWords, imm64Of, List.cons.injEq, and_true, ← BitVec.toNat_inj, BitVec.toNat_ofNat,
      List.getD_cons_zero, List.getD_cons_succ]
    omega
  case ldraw | hexdec =>
    obtain ⟨x1, x2, rfl⟩ := List.length_eq_two.mp (Nat.succ.inj hlen)
    rfl
  case straw | hexenc | shl | shr | muls | trunc256 =>
    obtain ⟨x1, rfl⟩ := List.length_eq_one_iff.mp (Nat.succ.inj hlen)
    rfl
  all_goals exact (List.length_eq_zero_iff.mp (Nat.succ.inj hlen)).symm

end Sys2Proof

open Sys2Proof

/-- Settles O1: word0 of a command selects its opcode and sets no reserved bit, so the decoder takes the extension words
of the encoding, of which the opcode makes the command again. -/
theorem encodedCommandDecodesToItself : Obligations.EncodedCommandDecodesToItself := by
  intro i rest
  have hdecode := decode_cons_append i.ofWord0_word0 i.reservedSet_word0 (encode_length i) rest
  rwa [i.instr_word0_extWords] at hdecode

/-- Settles O2: the decoder took a sound word0 and its extension words, and the command its opcode makes of them has
that word0 and those extension words. -/
theorem decodedWordsAreTheEncoding : Obligations.DecodedWordsAreTheEncoding := by
  intro words rest i h
  obtain ⟨w0, ext, op, rfl, hop, hres, hlen, rfl⟩ := exists_of_decode_eq_instr h
  rw [encode, Op.word0_instr, packWord0_of_sound (Op.opcOf_of_ofWord0 op w0 hop) hres, Op.extWords_instr hlen]
  rfl

end

section
/-!
What a command that completes changes: its destination register, or the one other piece of state that its kind of
command writes (rules R22 to R26, R52, R98). The invariant, the one-writer rules and the register frame follow case by
case.
-/

namespace Sys2Proof.Machine

open Claims

/-! ## What a command changes -/

/-- The state a command leaves when it completes, but for DZ. The lengths and bounds are those the operands give in a
state that meets the invariant. -/
inductive Change (i : Instr) (s : State) : State → Prop where
  | reg (rd : Reg) (b : Blob) (hdest : destReg i = some rd) (hlen : s.Inv → b.length = s.cfg.limbs) :
      Change i s (s.setReg rd b)
  | quotient (rd : Reg) (q r : Blob) (hdest : destReg i = some rd) (hdiv : isDiv i = true)
      (hlen : s.Inv → q.length = s.cfg.limbs ∧ r.length = s.cfg.limbs) : Change i s { s.setReg rd q with rem := r }
  | divZero (hdiv : isDiv i = true) : Change i s s
  | bytes (a : Nat) (bs : List Byte) (hstores : storesTbuf i = true)
      (hin : s.Inv → a + bs.length ≤ s.cfg.tbufBytes) : Change i s (s.memWrite a bs)
  | order (o : Ordering) (hcmp : isCmp i = true) : Change i s (s.setOrder o)
  | null (b : Bool) (hnull : isIsnull i = true) : Change i s (s.setNull b)
  | bits (n : Word) (hbits : isBits i = true) (hle : s.Inv → n.toNat ≤ s.cfg.width.bits) :
      Change i s { s with sr := n }

/-- The command completes with such a change and some DZ. -/
def Completes (i : Instr) (s : State) : Prop := ∃ u dz, Change i s u ∧ exec i s = .next { u with dz := dz }

/-- The command raises one of the two faults of rule R243. -/
def Faults (i : Instr) (s : State) : Prop :=
  ∃ c, (c = .rawLength ∨ c = .bufferRange) ∧ exec i s = s.raiseFault c i

theorem completes_of_complete {i : Instr} {s u : State} (hu : Change i s u) (h : exec i s = u.complete) :
    Completes i s := ⟨u, false, hu, h⟩

/-! The length of a result in a state that meets the invariant, by the shape of its computation. -/

theorem State.Inv.length_of_unary {s : State} {b : Blob} {ra : Reg} (hb : b.length = (s.reg ra).length) (h : s.Inv) :
    b.length = s.cfg.limbs := hb.trans (h.reg_limbs ra)

theorem State.Inv.length_of_binary {s : State} {b : Blob} {ra rb : Reg}
    (hb : b.length = min (s.reg ra).length (s.reg rb).length) (h : s.Inv) : b.length = s.cfg.limbs := by
  rw [hb, h.reg_limbs, h.reg_limbs, Nat.min_self]

theorem fromRaw_memRead_length (s : State) (a : Nat) : (fromRaw (s.memRead a s.cfg.rawBytes)).length = s.cfg.limbs := by
  have hnb := Config.rawBytes_eq s.cfg
  rw [fromRaw_length, State.memRead_length]
  omega

theorem hexParse_rawBytes_length (s : State) (text : List Byte) :
    (hexParse s.cfg.rawBytes text).length = s.cfg.limbs := by
  have hnb := Config.rawBytes_eq s.cfg
  rw [hexParse_length]
  omega

/-- The number BITS writes is at most N, and a 32-bit word holds it (rules R26, R169). -/
theorem State.Inv.bits_le {s : State} (h : s.Inv) (ra : Reg) :
    (BitVec.ofNat 32 (bitsBlob (s.reg ra))).toNat ≤ s.cfg.width.bits := by
  have hle := bitsBlob_le (s.reg ra)
  rw [h.reg_limbs, Config.limbs_mul] at hle
  exact (Nat.mod_le _ _).trans hle

/-- Every command changes what its kind may change and completes, or raises a fault (rules R94, R240). -/
theorem completes_or_faults (i : Instr) (s : State) : Completes i s ∨ Faults i s := by
  cases i
  case ldraw rd addr len =>
    rcases execLdraw_cases rd addr len s with ⟨-, h⟩ | ⟨-, -, h⟩ | ⟨-, -, h⟩
    · exact .inr ⟨_, .inl rfl, h⟩
    · exact .inl (completes_of_complete (.reg rd _ rfl fun _ => fromRaw_memRead_length ..) h)
    · exact .inr ⟨_, .inr rfl, h⟩
  case hexdec rd addr len =>
    rcases execHexdec_cases rd addr len s with ⟨-, h⟩ | ⟨-, h⟩
    · exact .inl (completes_of_complete (.reg rd _ rfl fun _ => hexParse_rawBytes_length ..) h)
    · exact .inr ⟨_, .inr rfl, h⟩
  case straw ra addr =>
    rcases execStraw_cases ra addr s with ⟨hin, h⟩ | ⟨-, h⟩
    · exact .inl (completes_of_complete (.bytes _ _ rfl fun hinv => by rwa [hinv.raw_reg_length]) h)
    · exact .inr ⟨_, .inr rfl, h⟩
  case hexenc ra addr =>
    rcases execHexenc_cases ra addr s with ⟨hin, h⟩ | ⟨-, h⟩
    · rw [two_mul_rawBytes] at hin
      exact .inl (completes_of_complete (.bytes _ _ rfl fun hinv => by rwa [hinv.hexText_reg_length]) h)
    · exact .inr ⟨_, .inr rfl, h⟩
  case trunc256 ra addr =>
    rcases execTrunc256_cases ra addr s with ⟨hin, h⟩ | ⟨-, h⟩
    · refine .inl (completes_of_complete (.bytes _ _ rfl fun _ => ?_) h)
      exact (Nat.add_le_add_left (List.length_take_le ..) _).trans hin
    · exact .inr ⟨_, .inr rfl, h⟩
  case div rd ra rb =>
    rcases execDiv_cases rd ra rb s with ⟨-, h⟩ | ⟨q, r, hdiv, h⟩
    · exact .inl ⟨s, true, .divZero rfl, h⟩
    · refine .inl (completes_of_complete (.quotient rd q r rfl rfl fun hinv => ?_) h)
      have ha := hinv.reg_limbs ra
      exact ha ▸ divBlob_length _ _ _ _ (ha.trans (hinv.reg_limbs rb).symm) hdiv
  case cmp => exact .inl (completes_of_complete (.order _ rfl) rfl)
  case isnull => exact .inl (completes_of_complete (.null _ rfl) rfl)
  case bits ra => exact .inl (completes_of_complete (.bits _ rfl fun hinv => hinv.bits_le ra) rfl)
  case zero rd => exact .inl (completes_of_complete (.reg rd _ rfl fun _ => zeroBlob_length _) rfl)
  case ldu64 rd imm64 => exact .inl (completes_of_complete (.reg rd _ rfl fun _ => blob_length _ _) rfl)
  case rdrem rd => exact .inl (completes_of_complete (.reg rd _ rfl fun hinv => hinv.rem_limbs) rfl)
  case mul rd ra rb =>
    exact .inl (completes_of_complete (.reg rd _ rfl (State.Inv.length_of_unary (mulBlob_length _ _))) rfl)
  case and rd ra rb | or rd ra rb | xor rd ra rb | add rd ra rb | sub rd ra rb =>
    exact .inl (completes_of_complete (.reg rd _ rfl (State.Inv.length_of_binary (ra := ra) (rb := rb) (by simp))) rfl)
  case mov rd ra | not rd ra | shl rd ra _ | shr rd ra _ | neg rd ra | inc rd ra | dec rd ra | muls rd ra _ =>
    exact .inl (completes_of_complete (.reg rd _ rfl (State.Inv.length_of_unary (ra := ra) (by simp))) rfl)

/-! ## What keeps the invariant -/

theorem State.Inv.withDz {s : State} (h : s.Inv) (b : Bool) : { s with dz := b }.Inv := { h with }

theorem State.Inv.withInbox {s : State} (h : s.Inv) (ts : List HostTxn) : { s with inbox := ts }.Inv := { h with }

theorem State.Inv.answerRead {s : State} (h : s.Inv) (w : Word) : (s.answerRead w).Inv := { h with }

theorem State.Inv.setReg {s : State} {b : Blob} (h : s.Inv) (rd : Reg) (hb : b.length = s.cfg.limbs) :
    (s.setReg rd b).Inv :=
  { h with
    reg_limbs := fun r => by
      rw [State.reg_setReg]
      split_ifs
      · exact hb
      · exact h.reg_limbs r }

theorem State.Inv.withRem {s : State} {b : Blob} (h : s.Inv) (hb : b.length = s.cfg.limbs) :
    { s with rem := b }.Inv := { h with rem_limbs := hb }

theorem State.Inv.memWrite {s : State} {a : Nat} {bs : List Byte} (h : s.Inv) (hin : a + bs.length ≤ s.cfg.tbufBytes) :
    (s.memWrite a bs).Inv :=
  { h with
    tbuf_wf := putBytes_wf a bs s.tbuf h.tbuf_wf
    tbuf_range := fun cell hcell => by
      rcases mem_putBytes a bs s.tbuf cell.1 (List.mem_map_of_mem hcell) with ⟨-, hlt⟩ | hold
      · exact hlt.trans_le hin
      · obtain ⟨old, hmem, heq⟩ := List.mem_map.mp hold
        exact heq ▸ h.tbuf_range old hmem }

theorem State.Inv.setOrder {s : State} (h : s.Inv) (o : Ordering) : (s.setOrder o).Inv :=
  { h with one_order := by cases o <;> simp }

theorem State.Inv.setNull {s : State} (h : s.Inv) (b : Bool) : (s.setNull b).Inv := { h with }

theorem State.Inv.withSr {s : State} {n : Word} (h : s.Inv) (hn : n.toNat ≤ s.cfg.width.bits) :
    { s with sr := n }.Inv := { h with sr_le := hn }

theorem pendOk_nil (c : Config) : pendOk c [] := nofun

theorem State.Inv.withPend {s : State} {pend : List Word} (h : s.Inv) (hf : s.faulted = false)
    (hp : pendOk s.cfg pend) : { s with pend := pend }.Inv :=
  { h with
    pend_faulted := fun hft => absurd (hf.symm.trans hft) Bool.false_ne_true
    pend_ok := hp }

theorem State.Inv.faultEntry {s : State} {c : Cause} (h : s.Inv) (hc : c ≠ .none) (w : Word) : (s.faultEntry c w).Inv :=
  { h with
    cause_faulted := iff_of_true rfl hc
    fword_zero := nofun
    pend_faulted := fun _ => rfl
    pend_ok := pendOk_nil s.cfg }

theorem inv_resetOf {c : Config} (hc : c.wf) : (State.resetOf c).Inv where
  cfg_wf := hc
  reg_limbs r := by rw [State.reg_resetOf, zeroBlob_length]; rfl
  rem_limbs := List.length_replicate
  sr_le := Nat.zero_le _
  one_order := ⟨nofun, nofun, nofun⟩
  cause_faulted := by simp [State.resetOf]
  fword_zero _ := rfl
  pend_faulted _ := rfl
  pend_ok := pendOk_nil c
  tbuf_wf := .nil
  tbuf_range := nofun

theorem State.Inv.engineReset {s : State} (h : s.Inv) : s.engineReset.Inv := { inv_resetOf h.cfg_wf with }

/-! ## A command keeps the invariant -/

theorem Change.inv {i : Instr} {s u : State} (h : Change i s u) (hinv : s.Inv) : u.Inv := by
  cases h with
  | reg rd b _ hlen => exact hinv.setReg rd (hlen hinv)
  | quotient rd q r _ _ hlen =>
    obtain ⟨hq, hr⟩ := hlen hinv
    exact (hinv.setReg rd hq).withRem hr
  | divZero => exact hinv
  | bytes a bs _ hin => exact hinv.memWrite (hin hinv)
  | order o => exact hinv.setOrder o
  | null b => exact hinv.setNull b
  | bits n _ hle => exact hinv.withSr (hle hinv)

theorem inv_of_exec {i : Instr} {s t : State} (hinv : s.Inv) (h : exec i s = .next t) : t.Inv := by
  rcases completes_or_faults i s with ⟨u, dz, hu, he⟩ | ⟨c, hc, he⟩ <;> rw [he] at h
  · exact Host.Outcome.next.inj h ▸ (hu.inv hinv).withDz dz
  · rw [State.raiseFault_eq_next] at h
    exact h ▸ hinv.faultEntry (by rcases hc with rfl | rfl <;> decide) i.word0

/-! ## The frame of a command: what its kind does not write (rules R22 to R26, R52) -/

theorem Change.tbufByte {i : Instr} {s u : State} (h : Change i s u) (hi : storesTbuf i = false) (a : Nat) :
    u.tbufByte a = s.tbufByte a := by
  cases h with
  | bytes _ _ hstores => exact absurd (hi.symm.trans hstores) Bool.false_ne_true
  | _ => rfl

theorem Change.order_eq {i : Instr} {s u : State} (h : Change i s u) (hi : isCmp i = false) :
    u.eq = s.eq ∧ u.lt = s.lt ∧ u.gt = s.gt := by
  cases h with
  | order _ hcmp => exact absurd (hi.symm.trans hcmp) Bool.false_ne_true
  | _ => exact ⟨rfl, rfl, rfl⟩

theorem Change.z_eq {i : Instr} {s u : State} (h : Change i s u) (hi : isIsnull i = false) : u.z = s.z := by
  cases h with
  | null _ hnull => exact absurd (hi.symm.trans hnull) Bool.false_ne_true
  | _ => rfl

theorem Change.rem_eq {i : Instr} {s u : State} (h : Change i s u) (hi : isDiv i = false) : u.rem = s.rem := by
  cases h with
  | quotient _ _ _ _ hdiv => exact absurd (hi.symm.trans hdiv) Bool.false_ne_true
  | _ => rfl

theorem Change.sr_eq {i : Instr} {s u : State} (h : Change i s u) (hi : isBits i = false) : u.sr = s.sr := by
  cases h with
  | bits _ hbits => exact absurd (hi.symm.trans hbits) Bool.false_ne_true
  | _ => rfl

theorem Change.reg_eq {i : Instr} {s u : State} (h : Change i s u) {r : Reg} (hr : destReg i ≠ some r) :
    u.reg r = s.reg r := by
  have hne : ∀ rd : Reg, destReg i = some rd → rd ≠ r := fun rd hdest heq => hr (heq ▸ hdest)
  cases h with
  | reg rd b hdest => exact s.reg_setReg_ne b (hne rd hdest)
  | quotient rd q _ hdest => exact s.reg_setReg_ne q (hne rd hdest)
  | _ => rfl

/-! ## A division, by its divisor -/

theorem exec_div_of_none {s : State} {ra rb : Reg} (rd : Reg) (h : divBlob (s.reg ra) (s.reg rb) = none) :
    exec (.div rd ra rb) s = s.signalDivZero := by
  simp only [exec, execDiv, h]

theorem exec_div_of_some {s : State} {ra rb : Reg} {q r : Blob} (rd : Reg)
    (h : divBlob (s.reg ra) (s.reg rb) = some (q, r)) :
    exec (.div rd ra rb) s = { s.setReg rd q with rem := r }.complete := by
  simp only [exec, execDiv, h]

end Sys2Proof.Machine

open Sys2Proof.Machine

/-- Settles O12: of the three ends of `exec_cases`, completing and a division by zero keep the control fields, and a
fault is the fault entry with one of the two causes. -/
theorem commandCompletesOrFaults : Obligations.CommandCompletesOrFaults := by
  intro i s
  rcases exec_cases i s with ⟨u, hu, -, h⟩ | ⟨-, h⟩ | ⟨c, rfl | rfl, h⟩
  · exact .inr (.inr ⟨_, h, hu.faulted, hu.cause, hu.fword, hu.pend, hu.cfg, hu.epoch, hu.inbox, hu.outbox⟩)
  · exact .inr (.inr ⟨_, h, rfl, rfl, rfl, rfl, rfl, rfl, rfl, rfl⟩)
  · exact .inl (raises_of_exec h)
  · exact .inr (.inl (raises_of_exec h))

/-- Settles O15: each kind of change names its one kind of command, and a fault writes none of these. -/
theorem specialStateHasOneWriter : Obligations.SpecialStateHasOneWriter := by
  intro i s
  rcases completes_or_faults i s with ⟨u, dz, hu, h⟩ | ⟨c, -, h⟩
  · exact ⟨_, h, hu.order_eq, hu.z_eq, hu.rem_eq, hu.sr_eq, hu.tbufByte⟩
  · exact ⟨_, h, fun _ => ⟨rfl, rfl, rfl⟩, fun _ => rfl, fun _ => rfl, fun _ => rfl, fun _ _ => rfl⟩

/-- Settles O16: a change writes no register but the command's destination, and a fault writes none. -/
theorem onlyDestinationRegisterChanges : Obligations.OnlyDestinationRegisterChanges := by
  intro i s
  rcases completes_or_faults i s with ⟨u, dz, hu, h⟩ | ⟨c, -, h⟩
  · exact ⟨_, h, fun _ => hu.reg_eq⟩
  · exact ⟨_, h, fun _ _ => rfl⟩

/-- Settles O17: neither the result of such a command nor the way a division ends is computed from the cells or the
draws. -/
theorem otherCommandsDoNotSeeTbuf : Obligations.OtherCommandsDoNotSeeTbuf := by
  intro i s t cells epoch hloads hstores h
  cases i
  case ldraw | hexdec => exact nomatch hloads
  case straw | hexenc | trunc256 => exact nomatch hstores
  case div rd ra rb =>
    cases hdiv : divBlob (s.reg ra) (s.reg rb) with
    | none =>
      rw [exec_div_of_none rd hdiv, State.signalDivZero_eq_next] at h
      subst h
      exact exec_div_of_none (s := { s with tbuf := cells, epoch := epoch }) rd hdiv
    | some p =>
      rw [exec_div_of_some rd hdiv, State.complete_eq_next] at h
      subst h
      exact exec_div_of_some (s := { s with tbuf := cells, epoch := epoch }) rd hdiv
  all_goals
    obtain rfl := Host.Outcome.next.inj h
    rfl

/-- Settles O48: the reset values have L limbs each, no flag, no fault, and nothing in PEND or listed in TBUF. -/
theorem resetMeetsTheInvariant : Obligations.ResetMeetsTheInvariant :=
  ⟨inv_resetOf (by decide), fun _ => inv_resetOf⟩

end

section
/-!
The words of a command at the command port (rules R80, R91, R92): a word0 the engine accepts, a proper beginning of a
command, which stays in PEND, and the whole command, which executes.
-/

namespace Sys2Proof.Machine

open Claims

/-- Word0 of a command well formed for the engine passes its checks (rules R87, R89, R91). -/
theorem checkWord0_word0 {c : Config} {i : Instr} (h : i.wellFormed c) : checkWord0 c i.word0 = .ok i.op := by
  simp [checkWord0, i.ofWord0_word0, i.reservedSet_word0, h]

/-- A proper beginning of an encoding is no command yet (rule R92). -/
theorem decode_of_append_eq_encode {i : Instr} {front back : List Word} (h : front ++ back = encode i)
    (hfront : front ≠ []) (hback : back ≠ []) : decode front = .incomplete := by
  obtain ⟨w0, rest, rfl⟩ := List.exists_cons_of_ne_nil hfront
  obtain ⟨rfl, -⟩ := List.cons.inj h
  have hlen : (i.word0 :: rest).length + back.length = i.op.words := by
    rw [← List.length_append, h, encode_length]
  have hpos := List.length_pos_iff.mpr hback
  exact decode_of_length_lt i.ofWord0_word0 i.reservedSet_word0 (by rw [List.length_cons] at hlen; omega)

/-- The step that takes a word of a command well formed for the engine, the words before it being in PEND, assembles
them (rules R91, R92). -/
theorem step_of_command_word {s : State} {w : Word} {more : List Word} {ts : List HostTxn} {i : Instr}
    (hf : s.faulted = false) (hwf : i.wellFormed s.cfg) (hwords : s.pend ++ w :: more = encode i)
    (h : NextWord s w ts) : step s = assemble (s.pend ++ [w]) { s with inbox := ts } := by
  rw [step_of_nextWord h]
  rcases receiveWord_cases w { s with inbox := ts } with ⟨hft, -⟩ | ⟨c, -, hp, hc, -⟩ | ⟨-, -, he⟩
  · exact absurd (hf.symm.trans hft) Bool.false_ne_true
  · obtain ⟨rfl, -⟩ := List.cons.inj (hp ▸ hwords : [] ++ w :: more = encode i)
    exact nomatch hc.symm.trans (checkWord0_word0 hwf)
  · exact he

/-- The last word of a command runs it (rule R94). -/
theorem step_of_last_word {s : State} {w : Word} {ts : List HostTxn} {i : Instr} (hf : s.faulted = false)
    (hwf : i.wellFormed s.cfg) (hwords : s.pend ++ [w] = encode i) (h : NextWord s w ts) :
    step s = exec i { s with inbox := ts, pend := [] } := by
  have hdecode : decode (s.pend ++ [w]) = .instr i [] := by
    have henc := encodedCommandDecodesToItself i []
    rwa [List.append_nil, ← hwords] at henc
  rw [step_of_command_word hf hwf hwords h]
  exact assemble_instr _ hdecode

/-- A word before the last joins PEND (rule R92). -/
theorem step_of_middle_word {s : State} {w : Word} {more : List Word} {ts : List HostTxn} {i : Instr}
    (hf : s.faulted = false) (hwf : i.wellFormed s.cfg) (hwords : s.pend ++ w :: more = encode i) (hmore : more ≠ [])
    (h : NextWord s w ts) : step s = .next { s with inbox := ts, pend := s.pend ++ [w] } := by
  rw [step_of_command_word hf hwf hwords h]
  exact assemble_incomplete _ (decode_of_append_eq_encode ((List.append_assoc ..).trans hwords) (by simp) hmore)

/-- One step is a run of one step. -/
theorem run_one (s : State) : core.run 1 s = step s := by
  cases h : step s <;> simp only [Host.Core.run, core, h]

theorem run_succ_of_step {s t : State} (h : step s = .next t) (k : Nat) : core.run (k + 1) s = core.run k t := by
  simp only [Host.Core.run, core, h]

/-- The words that complete a command begun in PEND, taken one a step, run it (rule R95). -/
theorem run_of_command_words {i : Instr} {ts : List HostTxn} {words : List Word} {s : State} (hne : words ≠ [])
    (hf : s.faulted = false) (hwf : i.wellFormed s.cfg) (hwords : s.pend ++ words = encode i)
    (hin : s.inbox = words.map (cmdWrite s.cfg) ++ ts) :
    core.run words.length s = exec i { s with inbox := ts, pend := [] } := by
  induction words generalizing s with
  | nil => exact absurd rfl hne
  | cons w more ih =>
    by_cases hmore : more = []
    · subst hmore
      exact (run_one s).trans (step_of_last_word hf hwf hwords hin)
    · rw [List.length_cons, run_succ_of_step (step_of_middle_word hf hwf hwords hmore hin)]
      exact ih (s := { s with inbox := more.map (cmdWrite s.cfg) ++ ts, pend := s.pend ++ [w] }) hmore hf hwf
        ((List.append_assoc ..).trans hwords) rfl

end Sys2Proof.Machine

open Sys2Proof Sys2Proof.Machine

/-- Settles O8: the words assembled are the encoding, which decodes to the command. -/
theorem stepRunsTheDecodedCommand : Obligations.StepRunsTheDecodedCommand :=
  fun _ _ _ _ hf hwf hwords h => step_of_last_word hf hwf hwords h

/-- Settles O10: `run_of_command_words` from an empty PEND. -/
theorem wholeCommandRunsAsExec : Obligations.WholeCommandRunsAsExec := by
  intro s i ts ⟨hf, hp⟩ hwf hin
  have hrun := run_of_command_words (List.cons_ne_nil i.word0 i.extWords) hf hwf (by rw [hp]; rfl) hin
  rwa [← hp] at hrun

end

section
/-!
The invariant along a step (rules R21 to R28, R51). The words in PEND with the one received are a command or a proper
beginning of one, so a step neither breaks the invariant nor stops with a fault.
-/

namespace Sys2Proof.Machine

open Claims

/-! ## The command port -/

theorem Op.words_pos (op : Op) : 1 ≤ op.words := by
  cases op <;> decide

/-- The words in PEND and the one received begin with a word0 the engine accepted and are no more than it asks for
(rules R28, R91, R92). -/
theorem State.Inv.received {s : State} {w : Word} (hinv : s.Inv)
    (hw : s.pend = [] → ∃ op, checkWord0 s.cfg w = .ok op) :
    ∃ w0 rest op, s.pend ++ [w] = w0 :: rest ∧ checkWord0 s.cfg w0 = .ok op ∧ rest.length + 1 ≤ op.words := by
  cases hp : s.pend with
  | nil =>
    obtain ⟨op, hok⟩ := hw hp
    exact ⟨w, [], op, rfl, hok, Op.words_pos op⟩
  | cons w0 ws =>
    obtain ⟨op, hok, hlt⟩ := hinv.pend_ok w0 ws hp
    exact ⟨w0, ws ++ [w], op, rfl, hok, by simpa using hlt⟩

/-- They are a whole command, or as PEND may hold them (rule R92). -/
theorem State.Inv.decode_received {s : State} {w : Word} (hinv : s.Inv)
    (hw : s.pend = [] → ∃ op, checkWord0 s.cfg w = .ok op) :
    (∃ i, decode (s.pend ++ [w]) = .instr i []) ∨
    (decode (s.pend ++ [w]) = .incomplete ∧ pendOk s.cfg (s.pend ++ [w])) := by
  obtain ⟨w0, rest, op, hcmd, hok, hle⟩ := hinv.received hw
  obtain ⟨hop, -, hres⟩ := of_checkWord0_eq_ok hok
  rw [hcmd]
  rcases Nat.eq_or_lt_of_le hle with heq | hlt
  · exact .inl (decode_of_length_eq hop hres heq)
  · refine .inr ⟨decode_of_length_lt hop hres hlt, fun w0' rest' h => ?_⟩
    obtain ⟨rfl, rfl⟩ := List.cons.inj h
    exact ⟨op, hok, hlt⟩

/-- A check of word0 that fails names a cause (rules R91, R241). -/
theorem cause_ne_none_of_checkWord0 {c : Config} {w : Word} {e : Cause} (h : checkWord0 c w = .error e) :
    e ≠ .none := by
  rcases checkWord0_cases c w with ⟨-, h'⟩ | ⟨_, -, -, h'⟩ | ⟨_, -, -, -, h'⟩ | ⟨_, -, -, -, h'⟩ <;>
    rw [h'] at h <;> cases h <;> decide

theorem inv_of_receiveWord {w : Word} {s t : State} (hinv : s.Inv) (h : receiveWord w s = .next t) : t.Inv := by
  rcases receiveWord_cases w s with ⟨-, he⟩ | ⟨c, -, -, hc, he⟩ | ⟨hf, hw, he⟩ <;> rw [he] at h
  · exact Host.Outcome.next.inj h ▸ hinv
  · exact Host.Outcome.next.inj h ▸ hinv.faultEntry (cause_ne_none_of_checkWord0 hc) w
  · rcases (assemble_eq_next _ s t).mp h with ⟨hinc, rfl⟩ | ⟨i, -, hexec⟩
    · rcases hinv.decode_received hw with ⟨i, hi⟩ | ⟨-, hpend⟩
      · exact nomatch hinc.symm.trans hi
      · exact hinv.withPend hf hpend
    · exact inv_of_exec (hinv.withPend hf (pendOk_nil s.cfg)) hexec

theorem exec_ne_fault (i : Instr) (s : State) (r : Fault) : exec i s ≠ .fault r := by
  rcases completes_or_faults i s with ⟨u, dz, -, h⟩ | ⟨c, -, h⟩ <;> rw [h] <;> nofun

theorem receiveWord_ne_fault {s : State} (hinv : s.Inv) (w : Word) (r : Fault) : receiveWord w s ≠ .fault r := by
  rcases receiveWord_cases w s with ⟨-, he⟩ | ⟨c, -, -, -, he⟩ | ⟨-, hw, he⟩ <;> rw [he]
  · nofun
  · nofun
  · rcases hinv.decode_received hw with ⟨i, hi⟩ | ⟨hinc, -⟩
    · rw [assemble_instr s hi]
      exact exec_ne_fault i _ r
    · rw [assemble_incomplete s hinc]
      nofun

/-! ## A host transaction -/

theorem inv_of_hostRegWrite {r : HostReg} {data : Word} {s t : State} (hinv : s.Inv)
    (h : hostRegWrite r data s = .next t) : t.Inv := by
  rcases hostRegWrite_cases r data s with ⟨-, he⟩ | ⟨-, -, he⟩ | ⟨-, -, he⟩ <;> rw [he] at h
  · exact inv_of_receiveWord hinv h
  · exact Host.Outcome.next.inj h ▸ hinv.engineReset
  · exact Host.Outcome.next.inj h ▸ hinv

theorem hostRegWrite_ne_fault {s : State} (hinv : s.Inv) (q : HostReg) (data : Word) (r : Fault) :
    hostRegWrite q data s ≠ .fault r := by
  rcases hostRegWrite_cases q data s with ⟨-, he⟩ | ⟨-, -, he⟩ | ⟨-, -, he⟩ <;> rw [he]
  · exact receiveWord_ne_fault hinv data r
  · nofun
  · nofun

theorem inv_of_takeTxn {txn : HostTxn} {s t : State} (hinv : s.Inv) (h : takeTxn txn s = .next t) : t.Inv := by
  cases txn with
  | read addr size =>
    obtain ⟨w, rfl⟩ := takeTxn_read h
    exact hinv.answerRead w
  | write addr size data =>
    rcases takeTxn_write h with ⟨r, -, hw⟩ | ⟨i, htbuf, rfl⟩
    · exact inv_of_hostRegWrite hinv hw
    · obtain ⟨hin, -, -⟩ := hostTarget_tbuf htbuf
      exact hinv.memWrite ((Nat.add_le_add_left (List.length_take_le ..) i).trans hin)

theorem takeTxn_ne_fault {s : State} (hinv : s.Inv) (txn : HostTxn) (r : Fault) : takeTxn txn s ≠ .fault r := by
  cases txn with
  | read addr size => cases ht : hostTarget s addr size <;> simp [takeTxn, ht]
  | write addr size data =>
    cases ht : hostTarget s addr size with
    | reg q => simpa only [takeTxn, ht] using hostRegWrite_ne_fault hinv q data r
    | tbuf i => simp [takeTxn, ht]
    | none q => simp [takeTxn, ht]

end Sys2Proof.Machine

open Sys2Proof.Machine

/-- Settles O49: an idle step changes nothing. Any other takes a transaction: a read adds an answer, a TBUF write
stays in the window, a reset gives the reset state, and a CMD write drops its word, faults, extends PEND or executes a command,
which keeps the invariant by `inv_of_exec`. -/
theorem stepKeepsTheInvariant : Obligations.StepKeepsTheInvariant := by
  intro s t hinv h
  cases hi : s.inbox with
  | nil =>
    rw [step_of_inbox_nil hi] at h
    exact Host.Outcome.next.inj h ▸ hinv
  | cons txn ts =>
    rw [step_of_inbox_cons hi] at h
    exact inv_of_takeTxn (hinv.withInbox ts) h

/-- Settles O50: the one fault of the model is a PEND whose words with the one received are neither a command nor a
beginning of one, which `State.Inv.decode_received` excludes. -/
theorem stepNeverStopsWithAFault : Obligations.StepNeverStopsWithAFault := by
  intro s r hinv
  cases hi : s.inbox with
  | nil =>
    rw [step_of_inbox_nil hi]
    nofun
  | cons txn ts =>
    rw [step_of_inbox_cons hi]
    exact takeTxn_ne_fault (hinv.withInbox ts) txn r

end

section
/-!
Host accesses of the register block by their offset (rules R30, R37, R38, R62): the step of a register write, what a
faulted engine can do, and the accesses that are refused.
-/

namespace Sys2Proof.Machine

/-! ## A register write -/

/-- A 4-byte write at a register's offset is that register's write (rules R30, R61). -/
theorem step_regWrite {s : State} {ts : List HostTxn} {offset : Nat} {r : HostReg} {data : Word}
    (h : s.inbox = .write (s.cfg.hostBase + offset) 4 data :: ts) (hr : hostRegAt offset = some r) :
    step s = hostRegWrite r data { s with inbox := ts } := by
  have ht : hostTarget { s with inbox := ts } (s.cfg.hostBase + offset) 4 = .reg r := hostTarget_reg _ hr
  rw [step_of_inbox_cons h]
  simp only [takeTxn, ht]

theorem hostRegWrite_srst {data : Word} (h : data.getLsbD 0 = true) (s : State) :
    hostRegWrite .ctrl data s = .next s.engineReset :=
  if_pos h

theorem hostRegWrite_ctrl_ignored {data : Word} (h : data.getLsbD 0 = false) (s : State) :
    hostRegWrite .ctrl data s = .next s :=
  if_neg (Bool.eq_false_iff.mp h)

/-! ## A faulted engine -/

/-- Registers are accessed by 4 bytes (rule R62). -/
theorem size_of_hostTarget_reg {s : State} {addr size : Nat} {r : HostReg} (h : hostTarget s addr size = .reg r) :
    size = 4 := by
  rcases hostTarget_cases s addr size with ⟨-, h'⟩ | ⟨_, -, -, -, hsize, -⟩ | ⟨-, -, -, h'⟩ | ⟨-, -, h'⟩ |
      ⟨-, -, h'⟩ | ⟨-, -, h'⟩
  case inr.inl => exact hsize
  all_goals exact nomatch h.symm.trans h'

/-- A transaction changes nothing of a faulted engine but TBUF and the answers given, unless it is the CTRL write that
resets it (rules R93, R244, R245). -/
theorem takeTxn_of_faulted {txn : HostTxn} {s t : State} (hf : s.faulted = true) (h : takeTxn txn s = .next t) :
    (∃ tbuf outbox, t = { s with tbuf := tbuf, outbox := outbox }) ∨
    ∃ data, txn = .write (s.cfg.hostBase + 0x01C) 4 data ∧ data.getLsbD 0 = true ∧ t = s.engineReset := by
  cases txn with
  | read addr size =>
    obtain ⟨w, rfl⟩ := takeTxn_read h
    exact .inl ⟨_, _, rfl⟩
  | write addr size data =>
    rcases takeTxn_write h with ⟨r, hr, hw⟩ | ⟨i, -, rfl⟩
    · have haddr := addr_of_hostTarget_reg hr
      obtain rfl := size_of_hostTarget_reg hr
      rcases hostRegWrite_cases r data s with ⟨-, he⟩ | ⟨rfl, hsrst, he⟩ | ⟨-, -, he⟩ <;> rw [he] at hw
      · rw [receiveWord_faulted data s hf] at hw
        exact .inl ⟨s.tbuf, s.outbox, (Host.Outcome.next.inj hw).symm⟩
      · exact .inr ⟨data, haddr ▸ rfl, hsrst, (Host.Outcome.next.inj hw).symm⟩
      · exact .inl ⟨s.tbuf, s.outbox, (Host.Outcome.next.inj hw).symm⟩
    · exact .inl ⟨_, s.outbox, rfl⟩

/-! ## Refused accesses -/

/-- An access the address map refuses is refused by the step, read or written (rules R38, R62). -/
theorem step_of_refused_access {s : State} {addr size : Nat} {data : Word} {ts : List HostTxn} {r : Refusal}
    (h : s.inbox = .read addr size :: ts ∨ s.inbox = .write addr size data :: ts)
    (ht : hostTarget { s with inbox := ts } addr size = .none r) : step s = .refused r := by
  rcases h with h | h <;> rw [step_of_inbox_cons h] <;> simp only [takeTxn, ht]

theorem HostReg.offset_mod_four (r : HostReg) : r.offset % 4 = 0 := by
  cases r <;> rfl

theorem hostTarget_registerAccess (s : State) {offset size : Nat} (hlt : offset < 0x020)
    (h : offset % 4 ≠ 0 ∨ size ≠ 4) :
    hostTarget s (s.cfg.hostBase + offset) size = .none .hostRegisterAccess := by
  rcases hostTarget_cases s (s.cfg.hostBase + offset) size with ⟨hbelow, -⟩ | ⟨r, -, -, hr, hsize, -⟩ | ⟨-, -, -, h'⟩ |
      ⟨hlo, -, -⟩ | ⟨hlo, -, -⟩ | ⟨hlo, -, -⟩
  case inr.inl =>
    rw [Nat.add_sub_cancel_left, hostRegAt_eq_some] at hr
    have hmod := r.offset_mod_four
    omega
  case inr.inr.inl => exact h'
  all_goals omega

theorem hostTarget_reservedOffset (s : State) {offset : Nat} (size : Nat) (hlo : 0x020 ≤ offset)
    (hhi : offset < 0x1000) : hostTarget s (s.cfg.hostBase + offset) size = .none .hostReservedOffset := by
  rcases hostTarget_cases s (s.cfg.hostBase + offset) size with ⟨hbelow, -⟩ | ⟨r, -, hlt, -⟩ | ⟨-, hlt, -⟩ |
      ⟨-, -, h'⟩ | ⟨hge, -⟩ | ⟨hge, -⟩
  case inr.inr.inr.inl => exact h'
  all_goals omega

/-- The accesses of the window that are allowed: 1, 2 or 4 bytes, all in it (rule R62). -/
theorem tbufAccessOk_iff (s : State) (i size : Nat) :
    tbufAccessOk s i size = true ↔ (size = 1 ∨ size = 2 ∨ size = 4) ∧ i + size ≤ s.cfg.tbufBytes := by
  simp [tbufAccessOk, or_assoc]

theorem hostTarget_tbufAccess (s : State) {offset size : Nat} (hlo : 0x1000 ≤ offset)
    (h : (size ≠ 1 ∧ size ≠ 2 ∧ size ≠ 4) ∨ 0x1000 + s.cfg.tbufBytes < offset + size) :
    hostTarget s (s.cfg.hostBase + offset) size = .none .hostTbufAccess := by
  rcases hostTarget_cases s (s.cfg.hostBase + offset) size with ⟨hbelow, -⟩ | ⟨r, -, hlt, -⟩ | ⟨-, hlt, -⟩ |
      ⟨-, hlt, -⟩ | ⟨-, hok, -⟩ | ⟨-, -, h'⟩
  case inr.inr.inr.inr.inl =>
    rw [tbufAccessOk_iff] at hok
    omega
  case inr.inr.inr.inr.inr => exact h'
  all_goals omega

/-- An allowed access of the window reaches the byte at its offset there (rules R61, R62). -/
theorem hostTarget_tbufWindow (s : State) {i size : Nat} (hsize : size = 1 ∨ size = 2 ∨ size = 4)
    (hin : i + size ≤ s.cfg.tbufBytes) : hostTarget s (s.cfg.hostBase + 0x1000 + i) size = .tbuf i := by
  have hi : s.cfg.hostBase + 0x1000 + i - s.cfg.hostBase - 0x1000 = i := by omega
  have hok := (tbufAccessOk_iff s i size).mpr ⟨hsize, hin⟩
  rcases hostTarget_cases s (s.cfg.hostBase + 0x1000 + i) size with ⟨hbelow, -⟩ | ⟨r, -, hlt, -⟩ | ⟨-, hlt, -⟩ |
      ⟨-, hlt, -⟩ | ⟨-, -, h'⟩ | ⟨-, hno, -⟩
  case inr.inr.inr.inr.inl => rwa [hi] at h'
  case inr.inr.inr.inr.inr => exact nomatch (hi ▸ hno).symm.trans hok
  all_goals omega

end Sys2Proof.Machine

open Sys2Proof.Machine

/-- Settles O14: an idle step changes nothing, and a transaction taken by a faulted engine changes none of these fields
or is the reset, by `takeTxn_of_faulted`. -/
theorem faultIsLeftOnlyByReset : Obligations.FaultIsLeftOnlyByReset := by
  intro s t hf h
  cases hi : s.inbox with
  | nil =>
    rw [step_of_inbox_nil hi] at h
    obtain rfl := Host.Outcome.next.inj h
    exact .inl ⟨hf, rfl, rfl, rfl, rfl, rfl, rfl, rfl, rfl, rfl, rfl, rfl⟩
  | cons txn ts =>
    rw [step_of_inbox_cons hi] at h
    rcases takeTxn_of_faulted (s := { s with inbox := ts }) hf h with ⟨tbuf, outbox, rfl⟩ | ⟨data, rfl, hsrst, rfl⟩
    · exact .inl ⟨hf, rfl, rfl, rfl, rfl, rfl, rfl, rfl, rfl, rfl, rfl, rfl⟩
    · exact .inr ⟨data, ts, rfl, hsrst, rfl, rfl, rfl⟩

/-- Settles O44: each of these writes is a register's that `hostRegWrite` ignores. -/
theorem readOnlyWritesAreIgnored : Obligations.ReadOnlyWritesAreIgnored := by
  intro s offset data ts h hoffset
  rcases hoffset with rfl | rfl | rfl | rfl | rfl | rfl | ⟨rfl, hsrst⟩
  case inr.inr.inr.inr.inr.inr => exact (step_regWrite h rfl).trans (hostRegWrite_ctrl_ignored hsrst _)
  all_goals exact step_regWrite h rfl

/-- Settles O45: the address map answers each range with its refusal. -/
theorem forbiddenAccessesAreRefused : Obligations.ForbiddenAccessesAreRefused := by
  intro s offset size data ts h
  refine ⟨fun hlt hbad => ?_, fun hlo hhi => ?_, fun hlo hbad => ?_⟩
  · exact step_of_refused_access h (hostTarget_registerAccess _ hlt hbad)
  · exact step_of_refused_access h (hostTarget_reservedOffset _ size hlo hhi)
  · exact step_of_refused_access h (hostTarget_tbufAccess _ hlo hbad)

/-- Settles O47: the write is the reset, whose registers are L zeros and which lists nothing in TBUF. -/
theorem softResetGivesResetValues : Obligations.SoftResetGivesResetValues := by
  intro s data ts h hsrst
  refine ⟨_, (step_regWrite h rfl).trans (hostRegWrite_srst hsrst _), fun r => State.engineReset_reg _ r, ?_⟩
  exact ⟨rfl, rfl, rfl, rfl, rfl, rfl, rfl, rfl, rfl, rfl, rfl, rfl, rfl, rfl, fun _ => rfl⟩

end

section
/-!
The TBUF window (rules R53, R57, R62): a read answers the bytes it covers as one little-endian word, a write stores the
low bytes of its data, and the raw image of a value is read limb by limb.
-/

namespace Sys2Proof.Machine

open Claims

/-! ## A read of the window -/

/-- The answer to a read is the sum of the bytes read (rule R62). -/
theorem wordOfBytes_memRead (s : State) (a n : Nat) :
    wordOfBytes (s.memRead a n) = BitVec.ofNat 32 (sumBytes n fun j => s.tbufByte (a + j)) := by
  rw [wordOfBytes]
  congr 1
  induction n generalizing a with
  | zero => rfl
  | succ n ih =>
    simp only [State.memRead, List.foldr_cons, ih, sumBytes_succ, Nat.add_zero, Nat.add_assoc, Nat.add_comm 1]

/-- A read of the window answers its bytes and changes nothing else (rules R60, R62). -/
theorem step_tbufRead {s : State} {i size : Nat} {ts : List HostTxn} (hsize : size = 1 ∨ size = 2 ∨ size = 4)
    (hin : i + size ≤ s.cfg.tbufBytes) (h : s.inbox = .read (s.cfg.hostBase + 0x1000 + i) size :: ts) :
    step s = .next { s with
      inbox := ts
      outbox := s.outbox ++ [BitVec.ofNat 32 (sumBytes size fun j => s.tbufByte (i + j))] } := by
  have ht : hostTarget { s with inbox := ts } (s.cfg.hostBase + 0x1000 + i) size = .tbuf i :=
    hostTarget_tbufWindow _ hsize hin
  rw [step_of_inbox_cons h]
  simp only [takeTxn, ht, State.answerRead, wordOfBytes_memRead]
  rfl

/-- Where the window holds the low bytes of a number, the read answers the number modulo 2^(8·size). -/
theorem step_tbufRead_number {s : State} {i size x : Nat} {ts : List HostTxn}
    (hsize : size = 1 ∨ size = 2 ∨ size = 4) (hin : i + size ≤ s.cfg.tbufBytes)
    (h : s.inbox = .read (s.cfg.hostBase + 0x1000 + i) size :: ts)
    (hbytes : ∀ j < size, s.tbufByte (i + j) = BitVec.ofNat 8 (x / 2 ^ (8 * j))) :
    step s = .next { s with
      inbox := ts
      outbox := s.outbox ++ [BitVec.ofNat 32 (x % 2 ^ (8 * size))] } := by
  have hsum : (sumBytes size fun j => s.tbufByte (i + j)) = x % 2 ^ (8 * size) := by
    rw [← sumBytes_ofNat_div]
    exact Finset.sum_congr rfl fun j hj => by simp only [hbytes j (Finset.mem_range.mp hj)]
  rw [step_tbufRead hsize hin h, hsum]

/-! ## A write of the window -/

theorem bytesOfWord_length {size : Nat} (hsize : size ≤ 4) (data : Word) : (bytesOfWord size data).length = size :=
  (List.length_take ..).trans (Nat.min_eq_left hsize)

/-- Byte j of the data written is bits [8j+7:8j] of it (rule R62). -/
theorem bytesOfWord_getD {size j : Nat} (hsize : size ≤ 4) (hj : j < size) (data : Word) :
    (bytesOfWord size data).getD j 0#8 = BitVec.ofNat 8 (data.toNat / 2 ^ (8 * j)) := by
  have hraw : limbBytes data = raw [data] := (List.append_nil _).symm
  rw [List.getD_eq_getElem?_getD, bytesOfWord, List.getElem?_take_of_lt hj, hraw,
    raw_getElem?_eq_val_byte [data] (hj.trans_le hsize), Option.getD_some, val_cons, val_nil, Nat.mul_zero,
    Nat.add_zero]

/-- A write of the window stores its bytes and changes nothing else (rule R62). -/
theorem step_tbufWrite {s : State} {i size : Nat} {data : Word} {ts : List HostTxn}
    (hsize : size = 1 ∨ size = 2 ∨ size = 4) (hin : i + size ≤ s.cfg.tbufBytes)
    (h : s.inbox = .write (s.cfg.hostBase + 0x1000 + i) size data :: ts) :
    step s = .next ({ s with inbox := ts }.memWrite i (bytesOfWord size data)) := by
  have ht : hostTarget { s with inbox := ts } (s.cfg.hostBase + 0x1000 + i) size = .tbuf i :=
    hostTarget_tbufWindow _ hsize hin
  rw [step_of_inbox_cons h]
  simp only [takeTxn, ht]

theorem tbufByte_memWrite_bytesOfWord {s : State} {size : Nat} (hwf : Memory.wf s.tbuf) (hsize : size ≤ 4) (i : Nat)
    (data : Word) (a : Nat) : (s.memWrite i (bytesOfWord size data)).tbufByte a =
      if i ≤ a ∧ a < i + size then BitVec.ofNat 8 (data.toNat / 2 ^ (8 * (a - i))) else s.tbufByte a := by
  rw [State.tbufByte_memWrite s i _ a hwf, bytesOfWord_length hsize]
  split_ifs with ha
  · exact bytesOfWord_getD hsize (by omega) data
  · rfl

/-! ## The raw image of a value -/

/-- A 4-byte read of limb k of the raw image of a value answers that limb (rule R57). -/
theorem step_tbufRead_limb {s : State} {v : Blob} {a k : Nat} {l : Word} {ts : List HostTxn}
    (hbytes : ∀ j < 4 * v.length, s.tbufByte (a + j) = BitVec.ofNat 8 (val v / 2 ^ (8 * j)))
    (hin : a + 4 * v.length ≤ s.cfg.tbufBytes) (hl : v[k]? = some l)
    (h : s.inbox = .read (s.cfg.hostBase + 0x1000 + (a + 4 * k)) 4 :: ts) :
    step s = .next { s with inbox := ts, outbox := s.outbox ++ [l] } := by
  obtain ⟨hk, -⟩ := List.getElem?_eq_some_iff.mp hl
  have himage : ∀ j < 4, s.tbufByte (a + 4 * k + j) = BitVec.ofNat 8 (val v / 2 ^ (32 * k) / 2 ^ (8 * j)) := by
    intro j hj
    have hpow : 8 * (4 * k + j) = 32 * k + 8 * j := by omega
    rw [Nat.add_assoc, hbytes _ (by omega), Nat.div_div_eq_div_mul, ← Nat.pow_add, hpow]
  have hlimb : BitVec.ofNat 32 (val v / 2 ^ (32 * k) % 2 ^ (8 * 4)) = l := by
    rw [← toNat_eq_val_div hl, BitVec.ofNat_toNat, BitVec.setWidth_eq]
  rw [step_tbufRead_number (.inr (.inr rfl)) (by omega) h himage, hlimb]

/-- In range STRAW leaves the raw image of its register, and leaves the host's side alone (rules R54, R114). -/
theorem exec_straw_image {s : State} {ra : Reg} {addr : Word} (hinv : s.Inv)
    (hin : addr.toNat + bitsN s / 8 ≤ s.cfg.tbufBytes) :
    ∃ t, exec (.straw ra addr) s = .next t ∧ s.SameHost t ∧
      (∀ j < 4 * (s.reg ra).length, t.tbufByte (addr.toNat + j) = BitVec.ofNat 8 (val (s.reg ra) / 2 ^ (8 * j))) ∧
      addr.toNat + 4 * (s.reg ra).length ≤ t.cfg.tbufBytes := by
  have hlen : 4 * (s.reg ra).length = bitsN s / 8 := (raw_length _).symm.trans (hinv.raw_reg_length ra)
  obtain ⟨-, -, hstores⟩ := strawWritesRawBytes s ra addr hinv
  obtain ⟨t, ht, -, hbytes⟩ := hstores hin
  have hhost := exec_sameHost ht
  refine ⟨t, ht, hhost, fun j hj => ?_, by rwa [hlen, hhost.cfg]⟩
  rw [hbytes, addrOf, if_pos (by omega), Nat.add_sub_cancel_left]

/-- The two low limbs of a value are its number modulo 2^64 (rule R57). -/
theorem low_limbs_eq_val_mod {v : Blob} {lo hi : Word} (hlo : v[0]? = some lo) (hhi : v[1]? = some hi) :
    lo.toNat + 2 ^ 32 * hi.toNat = val v % 2 ^ 64 := by
  rw [toNat_eq_val_div hlo, toNat_eq_val_div hhi]
  omega

end Sys2Proof.Machine

open Sys2Proof Sys2Proof.Machine Sys2Proof.Claims

/-- Settles O52: the word answered is the sum of the bytes read. -/
theorem hostTbufReadAnswersTheBytes : Obligations.HostTbufReadAnswersTheBytes :=
  fun _ _ _ _ hsize hin h => step_tbufRead hsize hin h

/-- Settles O46: the write stores the low bytes of the data, and where these stand the read answers the data modulo
2^(8·size). -/
theorem hostTbufWriteThenRead : Obligations.HostTbufWriteThenRead := by
  intro s i size data ts hinv hsize hin h
  have hbytes := tbufByte_memWrite_bytesOfWord (s := { s with inbox := s.inbox.tail }) (size := size) hinv.tbuf_wf
    (by omega) i data
  rw [h, List.tail_cons] at hbytes ⊢
  refine ⟨_, step_tbufWrite hsize hin h, rfl, hbytes, ?_⟩
  refine step_tbufRead_number (x := data.toNat) hsize hin rfl fun j hj => ?_
  rw [hbytes, if_pos (by omega), Nat.add_sub_cancel_left]

/-- Settles O53: STRAW leaves the raw image of the value, of which each 4-byte read answers its limb; the two low limbs
are the value modulo 2^64. -/
theorem hostReadsLimbsOfRawImage : Obligations.HostReadsLimbsOfRawImage := by
  intro s ra addr ts hinv hin
  obtain ⟨t, ht, hhost, hbytes, hin'⟩ := exec_straw_image (ra := ra) hinv hin
  have hlen := hinv.reg_limbs ra
  constructor
  · intro k hk h
    have hl : (s.reg ra)[k]? = some (s.reg ra)[k] := List.getElem?_eq_getElem (hlen ▸ hk)
    refine ⟨t, _, ht, hl, ?_⟩
    rw [← hhost.outbox]
    exact step_tbufRead_limb hbytes hin' hl (by rw [hhost.inbox, hhost.cfg, h])
  · intro h
    have hfive := Config.five_le_limbs s.cfg
    obtain ⟨lo, hlo⟩ : ∃ lo, (s.reg ra)[0]? = some lo := ⟨_, List.getElem?_eq_getElem (by omega)⟩
    obtain ⟨hi, hhi⟩ : ∃ hi, (s.reg ra)[1]? = some hi := ⟨_, List.getElem?_eq_getElem (by omega)⟩
    refine ⟨t, _, _, lo, hi, ht, step_tbufRead_limb hbytes hin' hlo (by rw [hhost.inbox, hhost.cfg, h]; rfl),
      step_tbufRead_limb hbytes hin' hhi (by rw [hhost.cfg]), ?_, low_limbs_eq_val_mod hlo hhi⟩
    rw [hhost.outbox, List.append_assoc]
    rfl

end

section
/-!
Sequences of commands by the closed forms of their commands: the division law of rule R170 and the pseudo-instructions
of rule R100. Each command is taken in the state the one before it left, which meets the invariant.
-/

namespace Sys2Proof.Machine

open Claims

/-! ## Values written and read -/

/-- A value written modulo 2^N is the value written (rule R10). -/
theorem blob_mod (n x : Nat) : blob n (x % 2 ^ (32 * n)) = blob n x :=
  eq_of_val_eq (by simp) (by rw [val_blob, val_blob, Nat.mod_mod])

@[simp] theorem blob_val_blob (n x : Nat) : blob n (val (blob n x)) = blob n x := by
  rw [val_blob, blob_mod]

theorem val_blob_of_lt {n x : Nat} (h : x < 2 ^ (32 * n)) : val (blob n x) = x := by
  rw [val_blob, Nat.mod_eq_of_lt h]

theorem State.Inv.blob_val_reg {s : State} (h : s.Inv) (r : Reg) : blob s.cfg.limbs (val (s.reg r)) = s.reg r := by
  rw [← h.reg_limbs r, blob_val]

theorem State.Inv.blob_val_rem {s : State} (h : s.Inv) : blob s.cfg.limbs (val s.rem) = s.rem := by
  rw [← h.rem_limbs, blob_val]

/-- Quotient times divisor plus remainder is the dividend, when each is written modulo the width (rule R170). -/
theorem blob_div_mul_add_mod (n a b : Nat) :
    blob n (val (blob n (val (blob n (a / b)) * b)) + val (blob n (a % b))) = blob n a :=
  eq_of_val_eq (by simp) (by
    simp only [val_blob, Nat.mod_mul_mod, Nat.add_mod_mod, Nat.mod_add_mod, Nat.div_add_mod'])

/-! ## The states that commands leave -/

/-- The state that `Writes` names: V[rd] holds x mod 2^N, and DZ is 0. -/
def State.written (s : State) (rd : Reg) (x : Nat) : State :=
  { s with v := s.v.set rd (blob s.cfg.limbs x), dz := false }

/-- The state that a DIV with a nonzero divisor leaves (rule R167). -/
def State.divided (s : State) (rd ra rb : Reg) : State :=
  { s.written rd (val (s.reg ra) / val (s.reg rb)) with
    rem := blob s.cfg.limbs (val (s.reg ra) % val (s.reg rb)) }

@[simp] theorem State.written_cfg (s : State) (rd : Reg) (x : Nat) : (s.written rd x).cfg = s.cfg := rfl
@[simp] theorem State.written_rem (s : State) (rd : Reg) (x : Nat) : (s.written rd x).rem = s.rem := rfl
@[simp] theorem State.divided_cfg (s : State) (rd ra rb : Reg) : (s.divided rd ra rb).cfg = s.cfg := rfl
@[simp] theorem State.divided_rem (s : State) (rd ra rb : Reg) :
    (s.divided rd ra rb).rem = blob s.cfg.limbs (val (s.reg ra) % val (s.reg rb)) := rfl

@[simp] theorem State.reg_written_same (s : State) (rd : Reg) (x : Nat) :
    (s.written rd x).reg rd = blob s.cfg.limbs x := s.reg_setReg_same rd _

theorem State.reg_written_ne (s : State) {rd r : Reg} (x : Nat) (h : rd ≠ r) : (s.written rd x).reg r = s.reg r :=
  s.reg_setReg_ne _ h

@[simp] theorem State.reg_divided_same (s : State) (rd ra rb : Reg) :
    (s.divided rd ra rb).reg rd = blob s.cfg.limbs (val (s.reg ra) / val (s.reg rb)) := s.reg_written_same rd _

theorem State.reg_divided_ne (s : State) {rd r : Reg} (ra rb : Reg) (h : rd ≠ r) :
    (s.divided rd ra rb).reg r = s.reg r := s.reg_written_ne _ h

/-! ## The commands as the sequences use them -/

/-- A command that writes x mod 2^N writes x. -/
theorem exec_eq_written {i : Instr} {s : State} {rd : Reg} {x : Nat} (h : Writes i s rd (x % 2 ^ bitsN s)) :
    exec i s = .next (s.written rd x) := by
  rwa [Writes, bitsN, ← Config.limbs_mul, blob_mod] at h

theorem exec_ldu64 (s : State) (rd : Reg) (imm : BitVec 64) :
    exec (.ldu64 rd imm) s = .next (s.written rd imm.toNat) := rfl

section
variable {s : State} (hinv : s.Inv)
include hinv

theorem exec_add (rd ra rb : Reg) :
    exec (.add rd ra rb) s = .next (s.written rd (val (s.reg ra) + val (s.reg rb))) := by
  obtain ⟨-, -, -, -, -, -, hadd, -⟩ := additiveCommandsAreModular s rd ra rb hinv
  exact exec_eq_written hadd

theorem exec_sub (rd ra rb : Reg) :
    exec (.sub rd ra rb) s = .next (s.written rd (2 ^ bitsN s + val (s.reg ra) - val (s.reg rb))) := by
  obtain ⟨-, -, -, -, -, -, -, hsub, -⟩ := additiveCommandsAreModular s rd ra rb hinv
  exact exec_eq_written hsub

theorem exec_mul (rd ra rb : Reg) :
    exec (.mul rd ra rb) s = .next (s.written rd (val (s.reg ra) * val (s.reg rb))) := by
  obtain ⟨-, -, -, hmul⟩ := multiplicationsAreModular s rd ra rb 0#32 hinv
  exact exec_eq_written hmul

theorem exec_muls (rd ra : Reg) (imm32 : Word) :
    exec (.muls rd ra imm32) s = .next (s.written rd (val (s.reg ra) * imm32.toNat)) := by
  obtain ⟨-, -, hmuls, -⟩ := multiplicationsAreModular s rd ra ra imm32 hinv
  exact exec_eq_written hmuls

theorem exec_rdrem (rd : Reg) : exec (.rdrem rd) s = .next (s.written rd (val s.rem)) := by
  rw [State.written, hinv.blob_val_rem]
  rfl

theorem exec_div_of_ne_zero (rd ra : Reg) {rb : Reg} (hb : val (s.reg rb) ≠ 0) :
    exec (.div rd ra rb) s = .next (s.divided rd ra rb) := by
  obtain ⟨-, hdiv, -⟩ := divComputesFloorDivision s rd ra rb hinv
  exact hdiv hb

theorem exec_div_of_eq_zero (rd ra : Reg) {rb : Reg} (hb : val (s.reg rb) = 0) :
    exec (.div rd ra rb) s = .next { s with dz := true } := by
  obtain ⟨-, -, hzero⟩ := divComputesFloorDivision s rd ra rb hinv
  exact hzero hb

end

end Sys2Proof.Machine

open Sys2Proof Sys2Proof.Machine Sys2Proof.Claims

/-- Settles O18: `val_blob` and `blob_val`. -/
theorem blobIsTheValueModulo : Obligations.BlobIsTheValueModulo := ⟨val_blob, blob_val⟩

/-- Settles O33: DIV leaves quotient and remainder, the divisor is still in V[rb] and the product still in V[rp] when
the commands that use them execute, and the sum is the dividend by `blob_div_mul_add_mod`. -/
theorem quotientTimesDivisorPlusRemainder : Obligations.QuotientTimesDivisorPlusRemainder := by
  intro s rq rp rr ra rb hinv hb hqb hpr
  have hdiv := exec_div_of_ne_zero hinv rq ra hb
  have hinv1 := inv_of_exec hinv hdiv
  have hmul := exec_mul hinv1 rp rq rb
  have hinv2 := inv_of_exec hinv1 hmul
  have hrem := exec_rdrem hinv2 rr
  refine ⟨_, _, _, _, hdiv, hmul, hrem, exec_add (inv_of_exec hinv2 hrem) rp rp rr, ?_⟩
  simp only [State.reg_written_same, State.reg_written_ne _ _ hpr.symm, State.reg_divided_same,
    State.reg_divided_ne _ _ _ hqb, State.written_cfg, State.written_rem, State.divided_cfg, State.divided_rem,
    blob_val_blob, blob_div_mul_add_mod, hinv.blob_val_reg]

end

section
/-!
The pseudo-instructions of rule R100: each expands to one command, to an LDU64 of the immediate into the scratch
register and the command that uses it, or to DIV and RDREM.
-/

namespace Sys2Proof.Machine

open Claims

theorem expandsTo_one {p : Pseudo} {i : Instr} {s t : State} (hp : p.expand = some [i]) (h : exec i s = .next t) :
    ExpandsTo p [i] s t := ⟨hp, t, h, rfl⟩

theorem expandsTo_two {p : Pseudo} {i j : Instr} {s u t : State} (hp : p.expand = some [i, j])
    (h : exec i s = .next u) (h' : exec j u = .next t) : ExpandsTo p [i, j] s t := ⟨hp, u, h, t, h', rfl⟩

/-! ## The immediate in the scratch register -/

/-- After the LDU64 the scratch register holds the immediate, which 64 bits fit every width (rules R3, R112). -/
theorem val_reg_written_imm (s : State) (vt : Reg) (imm : BitVec 64) :
    val ((s.written vt imm.toNat).reg vt) = imm.toNat := by
  have hfive := Config.five_le_limbs s.cfg
  have hfit : imm.toNat < 2 ^ (32 * s.cfg.limbs) :=
    imm.isLt.trans_le (Nat.pow_le_pow_right (by decide) (by omega))
  rw [State.reg_written_same, val_blob_of_lt hfit]

section
variable {s : State} (hinv : s.Inv) {vt ra : Reg} (hne : vt ≠ ra) (vd : Reg) (imm : BitVec 64)
include hinv hne

theorem addi_expandsTo : ExpandsTo (.addi vd ra imm vt) [.ldu64 vt imm, .add vd ra vt] s
    ((s.written vt imm.toNat).written vd (val (s.reg ra) + imm.toNat)) := by
  have hadd := exec_add (inv_of_exec hinv (exec_ldu64 s vt imm)) vd ra vt
  rw [s.reg_written_ne _ hne, val_reg_written_imm] at hadd
  exact expandsTo_two (if_neg hne) (exec_ldu64 s vt imm) hadd

theorem subi_expandsTo : ExpandsTo (.subi vd ra imm vt) [.ldu64 vt imm, .sub vd ra vt] s
    ((s.written vt imm.toNat).written vd (2 ^ bitsN s + val (s.reg ra) - imm.toNat)) := by
  have hsub := exec_sub (inv_of_exec hinv (exec_ldu64 s vt imm)) vd ra vt
  rw [s.reg_written_ne _ hne, val_reg_written_imm] at hsub
  exact expandsTo_two (if_neg hne) (exec_ldu64 s vt imm) hsub

theorem divi_expandsTo (himm : imm.toNat ≠ 0) : ExpandsTo (.divi vd ra imm vt) [.ldu64 vt imm, .div vd ra vt] s
    { (s.written vt imm.toNat).written vd (val (s.reg ra) / imm.toNat) with
      rem := blob s.cfg.limbs (val (s.reg ra) % imm.toNat) } := by
  have hdiv := exec_div_of_ne_zero (inv_of_exec hinv (exec_ldu64 s vt imm)) vd ra
    (by rwa [val_reg_written_imm])
  rw [State.divided, s.reg_written_ne _ hne, val_reg_written_imm] at hdiv
  exact expandsTo_two (if_neg hne) (exec_ldu64 s vt imm) hdiv

theorem divi_zero_expandsTo (himm : imm.toNat = 0) : ExpandsTo (.divi vd ra imm vt) [.ldu64 vt imm, .div vd ra vt] s
    { s.written vt 0 with dz := true } := by
  have hdiv := exec_div_of_eq_zero (inv_of_exec hinv (exec_ldu64 s vt imm)) vd ra
    (by rwa [val_reg_written_imm])
  rw [himm] at hdiv
  exact expandsTo_two (if_neg hne) (himm ▸ exec_ldu64 s vt imm) hdiv

theorem cmpi_expandsTo : ExpandsTo (.cmpi ra imm vt) [.ldu64 vt imm, .cmp ra vt] s
    { s.written vt imm.toNat with
      eq := decide (val (s.reg ra) = imm.toNat)
      lt := decide (val (s.reg ra) < imm.toNat)
      gt := decide (imm.toNat < val (s.reg ra)) } := by
  obtain ⟨-, hcmp⟩ := cmpOrdersNumerically _ ra vt (inv_of_exec hinv (exec_ldu64 s vt imm))
  rw [s.reg_written_ne _ hne, val_reg_written_imm] at hcmp
  exact expandsTo_two (if_neg hne) (exec_ldu64 s vt imm) hcmp

end

/-! ## Quotient and remainder together -/

section
variable {s : State} (hinv : s.Inv) {vq vr : Reg} (hne : vq ≠ vr) (ra : Reg) {rb : Reg}
include hinv hne

theorem divrem_expandsTo (hb : val (s.reg rb) ≠ 0) : ExpandsTo (.divrem vq vr ra rb) [.div vq ra rb, .rdrem vr] s
    ((s.divided vq ra rb).written vr (val (s.reg ra) % val (s.reg rb))) := by
  have hdiv := exec_div_of_ne_zero hinv vq ra hb
  have hrem := exec_rdrem (inv_of_exec hinv hdiv) vr
  rw [State.written, State.divided_rem, State.divided_cfg, blob_val_blob] at hrem
  exact expandsTo_two (if_neg hne) hdiv hrem

/-- After a division by zero the old REM is read (rules R167, R168). -/
theorem divrem_zero_expandsTo (hb : val (s.reg rb) = 0) :
    ExpandsTo (.divrem vq vr ra rb) [.div vq ra rb, .rdrem vr] s { s with v := s.v.set vr s.rem, dz := false } :=
  expandsTo_two (if_neg hne) (exec_div_of_eq_zero hinv vq ra hb) rfl

end

/-- A copy of a register to itself changes nothing but DZ (rule R111). -/
theorem exec_mov_self (s : State) (r : Reg) : exec (.mov r r) s = .next { s with dz := false } := by
  have hself : s.setReg r (s.reg r) = s := by rw [State.setReg, State.reg, Fin.getElem_fin, Vector.set_getElem_self]
  exact congrArg State.complete hself

end Sys2Proof.Machine

open Sys2Proof Sys2Proof.Machine Sys2Proof.Claims

/-- Settles O51: an expansion of one command is that command's closed form, and one of two runs the second command in
the state the first left; a failed constraint leaves no expansion. -/
theorem pseudoExpansionsCompute : Obligations.PseudoExpansionsCompute := by
  intro s vq vr vd vt ra rb imm imm32 hinv
  obtain ⟨-, hisnull⟩ := isnullTestsForZero s ra
  obtain ⟨-, -, -, hzero, -, -⟩ := constructorsWriteTheirValue s vd ra imm hinv
  refine ⟨?_, ?_, ?_, ?_, ?_, ?_, fun heq => ?_, fun hne => ⟨?_, ?_, ?_, ?_, ?_⟩, fun heq => ?_, fun hne => ⟨?_, ?_⟩⟩
  · exact expandsTo_one rfl hzero
  · exact expandsTo_one rfl (exec_ldu64 s vd imm)
  · exact expandsTo_one rfl (exec_mov_self s 0)
  · exact expandsTo_one rfl hisnull
  · exact expandsTo_one rfl (exec_mul hinv vd ra ra)
  · exact expandsTo_one rfl (exec_muls hinv vd ra imm32)
  · exact ⟨if_pos heq, if_pos heq, if_pos heq, if_pos heq⟩
  · exact addi_expandsTo hinv hne vd imm
  · exact subi_expandsTo hinv hne vd imm
  · exact divi_expandsTo hinv hne vd imm
  · exact divi_zero_expandsTo hinv hne vd imm
  · exact cmpi_expandsTo hinv hne imm
  · exact if_pos heq
  · exact divrem_expandsTo hinv hne ra
  · exact divrem_zero_expandsTo hinv hne ra

/-- Settles O4: the assembler and the encoder run on each line. -/
theorem assemblerReadsExamples : Obligations.AssemblerReadsExamples := by
  unfold Obligations.AssemblerReadsExamples
  decide +kernel

end
